-- ==== Sys2Proof/Word.lean ====
section
/-! DEFINITION. The word types of the block's boundary and registers (spec 00_scope.md R4, 30_encoding.md R70). -/

namespace Sys2Proof

/-- A byte: port data, router data, every memory cell (R4). -/
abbrev Byte := BitVec 8

/-- The 16-bit command word `cmd` (R72). -/
abbrev Cmd := BitVec 16

/-- The 16-bit address given to the router (R42). -/
abbrev RouterAddr := BitVec 16

/-- An internal address after masking to 14 bits (R42). -/
abbrev InternalAddr := BitVec 14

/-- The width of `VADDR`, 15 bits (R16, conflict C1). -/
abbrev VramAddr := BitVec 15

/-- A pixel, or any 32-bit response `resp` (R74). -/
abbrev Resp := BitVec 32

end Sys2Proof
end

