-- ==== Sys2Proof/Config.lean ====
section
/-! DEFINITION. The one open parameter of the block that is a constant: the palette table (spec 00_scope.md R5). -/

namespace Sys2Proof

/-- One RGB triple of the palette table (R25). -/
structure Rgb where
  r : Byte
  g : Byte
  b : Byte
deriving DecidableEq, Repr, Inhabited

/-- `PALETTE`, the 64 fixed colours (R5, R25). The spec gives none of the 192 bytes (D19, N1), so the constant has no
body and nothing can be proved about a value of it. DESIGN CHOICE, safe (assumption log 5). -/
opaque Config.palette : BitVec 6 → Rgb

end Sys2Proof
end

