-- ==== Sys2Proof/Syntax.lean ====
section
/-! DEFINITION. The 20 operations (spec 30_encoding.md R75, spec/opcode_table.json), and the textual operations and
pseudo-operations of R94 and R95. -/

namespace Sys2Proof

/-- One constructor per row of spec/opcode_table.json. Operand widths are those of the command word (R72). -/
inductive Instr where
  /-- RD_CTRL, read port 0 (R101). -/
  | rdCtrl
  /-- RD_MASK, read port 1 (R103). -/
  | rdMask
  /-- RD_STATUS, read port 2 (R105). -/
  | rdStatus
  /-- RD_OAMADDR, read port 3 (R107). -/
  | rdOamaddr
  /-- RD_OAMDATA, read port 4 (R109). -/
  | rdOamdata
  /-- RD_SCROLL, read port 5 (R111). -/
  | rdScroll
  /-- RD_ADDR, read port 6 (R113). -/
  | rdAddr
  /-- RD_DATA, read port 7 (R115). -/
  | rdData
  /-- WR_CTRL `d`, write port 0 (R102). -/
  | wrCtrl (d : Byte)
  /-- WR_MASK `d`, write port 1 (R104). -/
  | wrMask (d : Byte)
  /-- WR_STATUS `d`, write port 2 (R106). -/
  | wrStatus (d : Byte)
  /-- WR_OAMADDR `d`, write port 3 (R108). -/
  | wrOamaddr (d : Byte)
  /-- WR_OAMDATA `d`, write port 4 (R110). -/
  | wrOamdata (d : Byte)
  /-- WR_SCROLL `d`, write port 5 (R112). -/
  | wrScroll (d : Byte)
  /-- WR_ADDR `d`, write port 6 (R114). -/
  | wrAddr (d : Byte)
  /-- WR_DATA `d`, write port 7 (R116). -/
  | wrData (d : Byte)
  /-- TICK (R130). -/
  | tick
  /-- IRQ_ACK (R136). -/
  | irqAck
  /-- COLOR `ci`, `ps` (R144). -/
  | color (ci : BitVec 2) (ps : BitVec 3)
  /-- DECODE `ti`, `ps` (R146). -/
  | decode (ti : BitVec 1) (ps : BitVec 3)
deriving DecidableEq, Repr

/-- The textual operations of R94 and the pseudo-operations of R95. Operands are the numbers a line writes down, of any
size; `TraceOp.wf` says which are legal. The 16 port mnemonics of R94 are `rd p` and `wr p d` (R95, first two rows). -/
inductive TraceOp where
  /-- `RD p`: the read mnemonic of port `p`. -/
  | rd (p : Nat)
  /-- `WR p, d`: the write mnemonic of port `p` with data `d`. -/
  | wr (p d : Nat)
  /-- `TICK`. -/
  | tick
  /-- `IRQ_ACK`. -/
  | irqAck
  /-- `COLOR ci, ps`. -/
  | color (ci ps : Nat)
  /-- `DECODE ti, ps`. -/
  | decode (ti ps : Nat)
  /-- `RESET`: the `rst` input, not a command word. -/
  | reset
  /-- `SYNC`: RD_STATUS, response discarded. -/
  | sync
  /-- `SETADDR a`: two WR_ADDR, high half first. -/
  | setAddr (a : Nat)
  /-- `POKE a, v`: SETADDR, then WR_DATA. -/
  | poke (a v : Nat)
  /-- `PEEK a`: SETADDR, then one or two RD_DATA. -/
  | peek (a : Nat)
  /-- `TICKS n`: TICK `n` times. -/
  | ticks (n : Nat)
  /-- `FRAME`: TICK until one returns `frame_done = 1`. -/
  | frame
deriving DecidableEq, Repr

end Sys2Proof
end

