-- ==== Sys2Proof/WellFormed.lean ====
section
/-! DEFINITION. Which operations are well formed: the operand ranges of spec 30_encoding.md R72, R94 and R95. -/

namespace Sys2Proof

/-- Every value of `Instr` is well formed: the operand types are exactly the fields of the command word (R72), so an
operand outside its range (U22, U23) is no `Instr` at all. Ranges are checked where operands are plain numbers, in
`TraceOp.wf`. -/
def Instr.wf : Instr → Bool
  | .rdCtrl | .rdMask | .rdStatus | .rdOamaddr | .rdOamdata | .rdScroll | .rdAddr | .rdData => true
  | .wrCtrl _ | .wrMask _ | .wrStatus _ | .wrOamaddr _ => true
  | .wrOamdata _ | .wrScroll _ | .wrAddr _ | .wrData _ => true
  | .tick | .irqAck => true
  | .color _ _ | .decode _ _ => true

/-- The address at which `PEEK` is not defined (R95, conflict C10). -/
def peekHole : Nat := 0x3EFF

/-- Operand ranges of the textual operations: "`d` is 0..255, `ci` 0..3, `ps` 0..7, `ti` 0..1" (R94), `p` in 0..7 and
`a` in 0..0xFFFF (R95), and no `PEEK` at 0x3EFF modulo 2^15 (R95). -/
def TraceOp.wf : TraceOp → Bool
  | .rd p => p < 8
  | .wr p d => p < 8 && d < 256
  | .tick => true
  | .irqAck => true
  | .color ci ps => ci < 4 && ps < 8
  | .decode ti ps => ti < 2 && ps < 8
  | .reset => true
  | .sync => true
  | .setAddr a => a < 0x10000
  | .poke a v => a < 0x10000 && v < 256
  | .peek a => a < 0x10000 && a % 0x8000 != peekHole
  | .ticks _ => true
  | .frame => true

end Sys2Proof
end

