-- ==== Sys2Proof/Decode.lean ====
section
/-! DEFINITION. The command word: decoder, encoder and the opcode table (spec 30_encoding.md R72, R73, R75, R90, R91). -/

namespace Sys2Proof

/-- Why a word decodes to no operation. -/
inductive Reject where
  /-- The class, bits 15:12, is 0x5 to 0xF (R73, R90). The machine makes an idle step of it. -/
  | reservedClass
deriving DecidableEq, Repr

/-- The class field, `cmd[15:12]` (R72). -/
def cmdClass (w : Cmd) : BitVec 4 := w.extractLsb' 12 4

/-- The direction bit of class 0, `cmd[11]`: `true` is a write (R72). -/
def cmdIsWrite (w : Cmd) : Bool := w.getLsbD 11

/-- The port address of class 0, `cmd[10:8]` (R72). -/
def cmdPort (w : Cmd) : BitVec 3 := w.extractLsb' 8 3

/-- The data byte of class 0, `cmd[7:0]` (R72). -/
def cmdData (w : Cmd) : Byte := w.extractLsb' 0 8

/-- The read operation of a port (R75, R76). -/
def readOfPort (p : BitVec 3) : Instr :=
  match p.toNat with
  | 0 => .rdCtrl
  | 1 => .rdMask
  | 2 => .rdStatus
  | 3 => .rdOamaddr
  | 4 => .rdOamdata
  | 5 => .rdScroll
  | 6 => .rdAddr
  | _ => .rdData

/-- The write operation of a port with its data byte (R75, R76). -/
def writeOfPort (p : BitVec 3) (d : Byte) : Instr :=
  match p.toNat with
  | 0 => .wrCtrl d
  | 1 => .wrMask d
  | 2 => .wrStatus d
  | 3 => .wrOamaddr d
  | 4 => .wrOamdata d
  | 5 => .wrScroll d
  | 6 => .wrAddr d
  | _ => .wrData d

/-- Class 0: a port operation. The data bits of a read are ignored (R72, R91). -/
def decodePort (w : Cmd) : Instr :=
  if cmdIsWrite w then writeOfPort (cmdPort w) (cmdData w) else readOfPort (cmdPort w)

/-- The decoder, total on all 65536 words; a reserved class is rejected by name (R72, R73, R90, R91). -/
def decode (w : Cmd) : Except Reject Instr :=
  match (cmdClass w).toNat with
  | 0 => .ok (decodePort w)
  | 1 => .ok .tick
  | 2 => .ok .irqAck
  | 3 => .ok (.color (w.extractLsb' 0 2) (w.extractLsb' 2 3))
  | 4 => .ok (.decode (w.extractLsb' 3 1) (w.extractLsb' 0 3))
  | _ => .error .reservedClass

/-- A class 0 word from its four fields (R72). -/
def portWord (isWrite : Bool) (p : BitVec 3) (d : Byte) : Cmd :=
  0#4 ++ BitVec.ofBool isWrite ++ p ++ d

/-- The canonical word of an operation: its fields, ignored bits 0 (R72, R75). -/
def encode : Instr → Cmd
  | .rdCtrl => portWord false 0 0
  | .rdMask => portWord false 1 0
  | .rdStatus => portWord false 2 0
  | .rdOamaddr => portWord false 3 0
  | .rdOamdata => portWord false 4 0
  | .rdScroll => portWord false 5 0
  | .rdAddr => portWord false 6 0
  | .rdData => portWord false 7 0
  | .wrCtrl d => portWord true 0 d
  | .wrMask d => portWord true 1 d
  | .wrStatus d => portWord true 2 d
  | .wrOamaddr d => portWord true 3 d
  | .wrOamdata d => portWord true 4 d
  | .wrScroll d => portWord true 5 d
  | .wrAddr d => portWord true 6 d
  | .wrData d => portWord true 7 d
  | .tick => 1#4 ++ 0#12
  | .irqAck => 2#4 ++ 0#12
  | .color ci ps => 3#4 ++ 0#7 ++ ps ++ ci
  | .decode ti ps => 4#4 ++ 0#8 ++ ti ++ ps

/-- The bits of a word that an operation reads: all but the ignored bits of R91. -/
def significantBits : Instr → Cmd
  | .rdCtrl | .rdMask | .rdStatus | .rdOamaddr | .rdOamdata | .rdScroll | .rdAddr | .rdData => 0xFF00
  | .wrCtrl _ | .wrMask _ | .wrStatus _ | .wrOamaddr _ => 0xFFFF
  | .wrOamdata _ | .wrScroll _ | .wrAddr _ | .wrData _ => 0xFFFF
  | .tick | .irqAck => 0xF000
  | .color _ _ => 0xF01F
  | .decode _ _ => 0xF00F

/-- One row of the opcode table: `cmd & mask = match` selects it (R75). -/
structure OpcodeRow where
  mnemonic : String
  pattern : Cmd
  mask : Cmd
deriving DecidableEq, Repr

/-- The rows of R75's table and of spec/opcode_table.json: the port reads. -/
def portReadRows : List OpcodeRow :=
  [⟨"RD_CTRL", 0x0000, 0xFF00⟩, ⟨"RD_MASK", 0x0100, 0xFF00⟩, ⟨"RD_STATUS", 0x0200, 0xFF00⟩,
   ⟨"RD_OAMADDR", 0x0300, 0xFF00⟩, ⟨"RD_OAMDATA", 0x0400, 0xFF00⟩, ⟨"RD_SCROLL", 0x0500, 0xFF00⟩,
   ⟨"RD_ADDR", 0x0600, 0xFF00⟩, ⟨"RD_DATA", 0x0700, 0xFF00⟩]

/-- The rows of R75's table: the port writes. -/
def portWriteRows : List OpcodeRow :=
  [⟨"WR_CTRL", 0x0800, 0xFF00⟩, ⟨"WR_MASK", 0x0900, 0xFF00⟩, ⟨"WR_STATUS", 0x0A00, 0xFF00⟩,
   ⟨"WR_OAMADDR", 0x0B00, 0xFF00⟩, ⟨"WR_OAMDATA", 0x0C00, 0xFF00⟩, ⟨"WR_SCROLL", 0x0D00, 0xFF00⟩,
   ⟨"WR_ADDR", 0x0E00, 0xFF00⟩, ⟨"WR_DATA", 0x0F00, 0xFF00⟩]

/-- The rows of R75's table: TICK, IRQ_ACK, COLOR, DECODE. -/
def otherRows : List OpcodeRow :=
  [⟨"TICK", 0x1000, 0xF000⟩, ⟨"IRQ_ACK", 0x2000, 0xF000⟩, ⟨"COLOR", 0x3000, 0xF000⟩, ⟨"DECODE", 0x4000, 0xF000⟩]

/-- The whole opcode table, 20 rows (R75). -/
def opcodeTable : List OpcodeRow := portReadRows ++ portWriteRows ++ otherRows

/-- Does a word select a row (R75). -/
def OpcodeRow.selects (r : OpcodeRow) (w : Cmd) : Bool := w &&& r.mask == r.pattern

/-- The mnemonic of an operation (R75). -/
def mnemonicOf : Instr → String
  | .rdCtrl => "RD_CTRL"
  | .rdMask => "RD_MASK"
  | .rdStatus => "RD_STATUS"
  | .rdOamaddr => "RD_OAMADDR"
  | .rdOamdata => "RD_OAMDATA"
  | .rdScroll => "RD_SCROLL"
  | .rdAddr => "RD_ADDR"
  | .rdData => "RD_DATA"
  | .wrCtrl _ => "WR_CTRL"
  | .wrMask _ => "WR_MASK"
  | .wrStatus _ => "WR_STATUS"
  | .wrOamaddr _ => "WR_OAMADDR"
  | .wrOamdata _ => "WR_OAMDATA"
  | .wrScroll _ => "WR_SCROLL"
  | .wrAddr _ => "WR_ADDR"
  | .wrData _ => "WR_DATA"
  | .tick => "TICK"
  | .irqAck => "IRQ_ACK"
  | .color _ _ => "COLOR"
  | .decode _ _ => "DECODE"

/-- The first word of an instruction given as a number, bit 0 least significant, bits above `nbits` zero. An operation is
one 16-bit word and travels on the 16-bit signal `cmd` (R70, R72), so there is no byte order to choose. -/
def firstWord (nbits w : Nat) : Cmd := BitVec.ofNat 16 (w % 2 ^ nbits)

/-- What the decoder reads from an instruction whose bits, numbered as spec/opcode_table.json numbers them, are `w`. -/
def decodeTableWord (nbits w : Nat) : Option Instr :=
  match decode (firstWord nbits w) with
  | .ok i => some i
  | .error _ => none

end Sys2Proof
end

