-- ==== Sys2Proof/Machine/State.lean ====
section
/-! DEFINITION. The state of the block (spec 10_state.md R10 to R31), with the boundary's pending inputs and the last
step's outputs (30_encoding.md R70), as plain data. -/

namespace Sys2Proof.Machine

/-- A memory bank: cells of (key, byte), keys strictly rising, no cell equal to what an unlisted key reads as. -/
abbrev Memory := List Host.Cell

/-- What an unlisted key of any bank reads as: 0x00, the reset contents of `PAT`, `NT`, `PAL` and `DIAG` (R31, D12;
assumption log 6). -/
def unlistedByte : Byte := 0x00

/-- The canonical form: keys strictly rising, no cell that says what an unlisted key says. -/
abbrev Memory.wf (m : Memory) : Prop := m.Pairwise (fun a b => a.1 < b.1) ∧ ∀ c ∈ m, c.2 ≠ unlistedByte

/-- Every key of a bank is below its size. -/
abbrev Memory.below (n : Nat) (m : Memory) : Prop := ∀ c ∈ m, c.1 < n

/-- One rising edge of `clk` with the inputs sampled at it (R70). -/
structure Edge where
  /-- `rst`. -/
  rst : Bool
  /-- `cmd_valid`. -/
  cmdValid : Bool
  /-- `cmd`. -/
  cmd : Cmd
deriving DecidableEq, Repr

/-- The cartridge's answer to one hook call, as the boundary carries it (R70). -/
structure CartAnswer where
  /-- `c_claim`: the cartridge claims the access. -/
  claim : Bool
  /-- `c_rdata`: its byte, meaningful when it claims a read. -/
  rdata : Byte
deriving DecidableEq, Repr

/-- One hook call the router made (R70), with the answer it got. -/
structure HookCall where
  /-- `c_we`: a `CartWrite`, else a `CartRead`. -/
  we : Bool
  /-- `c_addr`: the address after the 14-bit mask. -/
  addr : InternalAddr
  /-- `c_wdata`: the byte offered on a write (R70). On a read R70 gives it no value: what stands here then is the model's
  choice `wdataOnRead` (DESIGN CHOICE, assumption log 13). -/
  wdata : Byte
  /-- The answer: `c_claim` and `c_rdata`; the byte means nothing unless a read is claimed (R70). -/
  answer : CartAnswer
deriving DecidableEq, Repr

/-- The state. The first sixteen fields are the spec's state elements; the last four are the model's own: pending inputs
and the outputs of the last step (assumption log 1, 2, 4). -/
structure State where
  /-- `CTRL`, the control byte (R11, R77). -/
  ctrl : Byte
  /-- `MASK`, the mask byte (R12, R78). -/
  mask : Byte
  /-- `VBLANK` (R13). -/
  vblank : Bool
  /-- `SPRITE0`, written by nothing (R14). -/
  sprite0 : Bool
  /-- `SPROVF`, written by nothing (R14). -/
  sprovf : Bool
  /-- `LATCH`: `false` is 0, the next WR_ADDR is a high half (R15). -/
  latch : Bool
  /-- `VADDR`, 15 bits (R16). -/
  vaddr : VramAddr
  /-- `RBUF`, the read buffer (R17). -/
  rbuf : Byte
  /-- `IRQ`, the interrupt-request flag (R18). -/
  irq : Bool
  /-- `SCANLINE`, an integer of −1..260 (R19). -/
  scanline : Int
  /-- `CYCLE`, a natural of 0..340 (R20). -/
  cycle : Nat
  /-- `TICKS`, unbounded (R21). -/
  ticks : Nat
  /-- `PAT[b][o]` at key `b × 4096 + o` (R22). -/
  pat : Memory
  /-- `NT[b][o]` at key `b × 1024 + o`; no operation reaches it (R23). -/
  nt : Memory
  /-- `PAL[i]` at key `i` (R24). -/
  pal : Memory
  /-- `DIAG[t][k]` at key `t × 65536 + k`, the diagnostic views (R26). -/
  diag : Memory
  /-- Clock edges still to come, the next one first (R70, R71; assumption log 1). -/
  edges : List Edge
  /-- The cartridge's answers still to come, the next one first; none left means unclaimed (R48, R49; assumption log 2). -/
  cart : List CartAnswer
  /-- `resp`, the response of the last step (R70, R74). -/
  resp : Resp
  /-- The hook calls of the last step, the newest first (R70, R150). -/
  hooks : List HookCall
deriving DecidableEq, Repr

/-- The faults of a step: none. "A model therefore has no fault outcome and no stuck state for any operation of this
block" (R7, R160), so the type has no constructor and no step can answer one. Nobody raises it; safe, as the spec has
no fault to lose. -/
inductive Fault where
deriving DecidableEq, Repr

/-- The refusals of a step. -/
inductive Refusal where
  /-- An operation that has no meaning in the model yet, raised by its arm of `exec` alone; safe. Every operation has its
  meaning, so no arm raises it. -/
  | notModelled (mnemonic : String)
deriving DecidableEq, Repr

/-- The state right after RESET at power-up (R31, R180): every register, flag and byte 0, position (−1, 0), no cartridge
attached. No input is pending and no output has been given (assumption log 1, 2, 4). -/
def State.reset : State where
  ctrl := 0x00
  mask := 0x00
  vblank := false
  sprite0 := false
  sprovf := false
  latch := false
  vaddr := 0x0000
  rbuf := 0x00
  irq := false
  scanline := -1
  cycle := 0
  ticks := 0
  pat := []
  nt := []
  pal := []
  diag := []
  edges := []
  cart := []
  resp := 0
  hooks := []

end Sys2Proof.Machine
end

