-- ==== Sys2Proof/Machine/Operands.lean ====
section
/-! DEFINITION. Addresses and operands: the router's map (spec 20_memory.md R42, R50 to R54), the halves of `VADDR`
(30_encoding.md R80), the decoder's addresses (R88, R89) and the keys of the banks. -/

namespace Sys2Proof.Machine

/-- The first internal address of the palette region, which RD_DATA compares `VADDR` with (R115). -/
def paletteBase : Nat := 0x3F00

/-- Masking a router address to 14 bits (R42, R46). -/
def maskAddr (a : RouterAddr) : InternalAddr := a.extractLsb' 0 14

/-- `zext_16(VADDR)`, the router address of a data-port access (R86). -/
def dataPortAddr (v : VramAddr) : RouterAddr := v.setWidth 16

/-- What an internal address reaches when the cartridge does not claim the access (R54). -/
inductive Target where
  /-- `PAT[bank][offset]` (R50). -/
  | pattern (bank : BitVec 1) (offset : BitVec 12)
  /-- Nothing: the name-table placeholder (R51). -/
  | nameTable
  /-- `PAL[index]` (R52, R53). -/
  | palette (index : BitVec 5)
deriving DecidableEq, Repr

/-- The alias function of the palette RAM (R53). -/
def palidx (i : BitVec 5) : BitVec 5 :=
  if i = 0x10 then 0x00
  else if i = 0x14 then 0x04
  else if i = 0x18 then 0x08
  else if i = 0x1C then 0x0C
  else i

/-- The map of the internal space (R54): pattern range, name-table range, palette range. -/
def route (a : InternalAddr) : Target :=
  if a.toNat ≤ 0x1FFF then .pattern (a.extractLsb' 12 1) (a.extractLsb' 0 12)
  else if a.toNat ≤ 0x3EFF then .nameTable
  else .palette (palidx (a.extractLsb' 0 5))

/-- The key of `PAT[bank][offset]`. -/
def patKey (bank : BitVec 1) (offset : BitVec 12) : Nat := bank.toNat * 4096 + offset.toNat

/-- The key of `DIAG[t][k]`. -/
def diagKey (t : BitVec 1) (k : Nat) : Nat := t.toNat * 65536 + k

/-- `VADDR` after a high-half write: `{d[6:0], VADDR[7:0]}`; `d[7]` is discarded (R80, R114). -/
def withHighHalf (v : VramAddr) (d : Byte) : VramAddr := d.extractLsb' 0 7 ++ v.extractLsb' 0 8

/-- `VADDR` after a low-half write: `{VADDR[14:8], d}` (R80, R114). -/
def withLowHalf (v : VramAddr) (d : Byte) : VramAddr := v.extractLsb' 8 7 ++ d

/-- The step of `VADDR` after a data-port access: plus 1 modulo 2^15 (R117). -/
def nextVaddr (v : VramAddr) : VramAddr := v + 1

/-- COLOR's address `0x3F00 + ps × 4 + ci` (R88). -/
def colorAddr (ci : BitVec 2) (ps : BitVec 3) : RouterAddr := 0b00111111000#11 ++ ps ++ ci

/-- A row of a tile: the tile's row and column in the 16 × 16 grid, and the pixel row inside it (R145). -/
structure TileRow where
  ty : BitVec 4
  tx : BitVec 4
  row : BitVec 3
deriving DecidableEq, Repr

/-- The address of the low plane of a tile row: `ti × 0x1000 + ty × 256 + tx × 16 + row` (R89, R145). -/
def lowPlaneAddr (ti : BitVec 1) (j : TileRow) : RouterAddr := 0#3 ++ ti ++ j.ty ++ j.tx ++ 0#1 ++ j.row

/-- The address of the high plane of a tile row, 8 bytes above the low plane (R89, R145). -/
def highPlaneAddr (ti : BitVec 1) (j : TileRow) : RouterAddr := 0#3 ++ ti ++ j.ty ++ j.tx ++ 1#1 ++ j.row

/-- The byte index of pixel (x, y) in a view, of which red is the first byte: `(y × 128 + x) × 4` (R45, R149). -/
def pixelIndex (x y : Nat) : Nat := (y * 128 + x) * 4

end Sys2Proof.Machine
end

