-- ==== Sys2Proof/Machine/Flags.lean ====
section
/-! DEFINITION. The bit fields of the control, mask and status bytes (spec 30_encoding.md R77 to R79) and the two tests of
the timing position (41_timing_fsm.md R131, R132). -/

namespace Sys2Proof.Machine

/-- `NMI_EN`, bit 7 of the control byte (R77). -/
def ctrlNmiEn (c : Byte) : Bool := c.getLsbD 7
/-- `SLAVE`, bit 6; read by nothing (R77). -/
def ctrlSlave (c : Byte) : Bool := c.getLsbD 6
/-- `SPR_SIZE`, bit 5; read by nothing (R77). -/
def ctrlSprSize (c : Byte) : Bool := c.getLsbD 5
/-- `BG_PT`, bit 4; read by nothing (R77). -/
def ctrlBgPt (c : Byte) : Bool := c.getLsbD 4
/-- `SPR_PT`, bit 3; read by nothing (R77). -/
def ctrlSprPt (c : Byte) : Bool := c.getLsbD 3
/-- `VINC`, bit 2; read by nothing: the increment is always 1 (R77, R117). -/
def ctrlVinc (c : Byte) : Bool := c.getLsbD 2
/-- `NT_Y`, bit 1; read by nothing (R77). -/
def ctrlNtY (c : Byte) : Bool := c.getLsbD 1
/-- `NT_X`, bit 0; read by nothing (R77). -/
def ctrlNtX (c : Byte) : Bool := c.getLsbD 0

/-- `GRAY`, bit 0 of the mask byte; no field of it is read by anything (R78). -/
def maskGray (m : Byte) : Bool := m.getLsbD 0
/-- `BG_LEFT`, bit 1 (R78). -/
def maskBgLeft (m : Byte) : Bool := m.getLsbD 1
/-- `SPR_LEFT`, bit 2 (R78). -/
def maskSprLeft (m : Byte) : Bool := m.getLsbD 2
/-- `BG_EN`, bit 3 (R78). -/
def maskBgEn (m : Byte) : Bool := m.getLsbD 3
/-- `SPR_EN`, bit 4 (R78). -/
def maskSprEn (m : Byte) : Bool := m.getLsbD 4
/-- `EMPH0` to `EMPH2`, bits 5 to 7 (R78). -/
def maskEmph (m : Byte) : BitVec 3 := m.extractLsb' 5 3

/-- The status byte `{VBLANK, SPRITE0, SPROVF, RBUF[4:0]}` (R79, R105). -/
def statusByte (vblank sprite0 sprovf : Bool) (rbuf : Byte) : Byte :=
  BitVec.ofBool vblank ++ BitVec.ofBool sprite0 ++ BitVec.ofBool sprovf ++ rbuf.extractLsb' 0 5

/-- The position at which TICK clears `VBLANK`: (−1, 1) (R131). -/
def atVblankClear (scanline : Int) (cycle : Nat) : Bool := scanline == -1 && cycle == 1

/-- The position at which TICK sets `VBLANK`: (241, 1) (R132). -/
def atVblankSet (scanline : Int) (cycle : Nat) : Bool := scanline == 241 && cycle == 1

/-- Ticks in a scanline (R133). -/
def cyclesPerLine : Nat := 341

/-- The scanline at which the position wraps (R134). -/
def scanlineEnd : Int := 261

/-- Ticks in a frame, 341 × 262 (R4, R134). -/
def ticksPerFrame : Nat := 341 * 262

end Sys2Proof.Machine
end

