-- ==== Sys2Proof/Machine/Ops.lean ====
section
/-! DEFINITION. The shared operations: banks (spec 20_memory.md), the cartridge hook and the router (R46 to R53), the
response (30_encoding.md R74), the interrupt request (60_exceptions.md R169, R170), reset (70_reset_and_hazards.md R180),
and the boundary's outputs (R70). -/

namespace Sys2Proof.Machine

/-! ### Banks -/

/-- The byte at a key. -/
def Memory.read : Memory → Nat → Byte
  | [], _ => unlistedByte
  | c :: m, k => if k = c.1 then c.2 else Memory.read m k

/-- The cell a byte takes in front of a bank, none if an unlisted key says the same. -/
def Memory.consCell (k : Nat) (v : Byte) (m : Memory) : Memory := if v = unlistedByte then m else (k, v) :: m

/-- Storing a byte at a key, keeping the canonical form. -/
def Memory.write : Memory → Nat → Byte → Memory
  | [], k, v => Memory.consCell k v []
  | c :: m, k, v =>
    if k < c.1 then Memory.consCell k v (c :: m)
    else if k = c.1 then Memory.consCell k v m
    else c :: Memory.write m k v

/-! ### The cartridge hook (R48, R49) -/

/-- What the block sees of a cartridge that does not claim the access, or of none (R48). R70 gives `c_rdata` no meaning
there, and no meaning reads it: the 0x00 is the model's. DESIGN CHOICE, safe (assumption log 2). -/
def unclaimed : CartAnswer := ⟨false, 0x00⟩

/-- The answer to a `CartRead` as R48 has it: the byte if claimed, else "unclaimed". -/
def CartAnswer.byte (c : CartAnswer) : Option Byte := if c.claim then some c.rdata else none

/-- The answer the next hook call gets. -/
def nextAnswer (s : State) : CartAnswer := s.cart.headD unclaimed

/-- What is recorded as `c_wdata` on a read, where R70 gives the signal no value ("the byte offered on a write"). The block
and the cartridge read nothing of it. DESIGN CHOICE, unsafe (assumption log 13). -/
def wdataOnRead : Byte := 0x00

/-- One hook call: it takes the next answer and shows on the `c_*` signals (R70). No answer changes a bank of the block
(R49). -/
def hookCall (we : Bool) (addr : InternalAddr) (wdata : Byte) (s : State) : State :=
  { s with cart := s.cart.tail, hooks := ⟨we, addr, wdata, nextAnswer s⟩ :: s.hooks }

/-! ### The router (R46, R47) -/

/-- The byte of the block's own bank at an internal address; 0x00 in the name-table range (R50, R51, R52). -/
def bankRead (s : State) (a : InternalAddr) : Byte :=
  match route a with
  | .pattern b o => s.pat.read (patKey b o)
  | .nameTable => 0x00
  | .palette i => s.pal.read i.toNat

/-- Storing to the block's own bank at an internal address; dropped in the name-table range (R50, R51, R52). -/
def bankWrite (a : InternalAddr) (v : Byte) (s : State) : State :=
  match route a with
  | .pattern b o => { s with pat := s.pat.write (patKey b o) v }
  | .nameTable => s
  | .palette i => { s with pal := s.pal.write i.toNat v }

/-- The byte `MemRead(a, 1)` returns: the cartridge's if it claims, else the bank's (R46). -/
def memReadValue (a : RouterAddr) (s : State) : Byte :=
  if (nextAnswer s).claim then (nextAnswer s).rdata else bankRead s (maskAddr a)

/-- `MemRead(a, 1)`: the byte, and the state after the one hook call it makes (R46). -/
def memRead (a : RouterAddr) (s : State) : Byte × State :=
  (memReadValue a s, hookCall false (maskAddr a) wdataOnRead s)

/-- `MemWrite(a, 1, v)`: one hook call; unclaimed, the byte goes to the bank (R47). -/
def memWrite (a : RouterAddr) (v : Byte) (s : State) : State :=
  let s' := hookCall true (maskAddr a) v s
  if (nextAnswer s).claim then s' else bankWrite (maskAddr a) v s'

/-! ### The response (R74) -/

/-- Driving `resp`. -/
def respond (v : Resp) (s : State) : State := { s with resp := v }

/-- The response of a port read: `zext_32` of the byte (R74, R100). -/
def respondByte (v : Byte) (s : State) : State := respond (v.setWidth 32) s

/-- The response of a port write, of IRQ_ACK, of DECODE and of an idle step: 0 (R74, R100). -/
def respondZero (s : State) : State := respond 0 s

/-- The outcome type of a meaning. -/
abbrev Result := Host.Outcome State Fault Refusal

/-- A no-op port read: the whole state stays, the response is 0x00 (R92, R100). -/
def noOpRead (s : State) : Result := .next (respondByte 0x00 s)

/-- A no-op port write: the byte is dropped, the whole state stays (R92, R100). -/
def noOpWrite (s : State) : Result := .next (respondZero s)

/-! ### The interrupt request (R169, R170)

The block takes no exception (R160): raising its request is the one event it has, and IRQ_ACK is the block's side of a
return. -/

/-- Raising the request "changes exactly one bit, `IRQ <- 1`. The block saves nothing, switches no mode, masks nothing,
and does not change `CTRL`" (R169). -/
def raiseIrq (s : State) : State := { s with irq := true }

/-- Consuming the request: `IRQ <- 0`; it restores nothing, "because entry saved nothing" (R136, R170). -/
def acknowledgeIrq (s : State) : State := { s with irq := false }

/-! ### Clock edges and reset (R70, R71, R180) -/

/-- The edge the surroundings make when no input is pending: `rst = 0`, `cmd_valid = 0` (R71; assumption log 1). -/
def idleEdge : Edge := ⟨false, false, 0x0000⟩

/-- The edge that presents an operation in its canonical word (R72). -/
def commandEdge (i : Instr) : Edge := ⟨false, true, encode i⟩

/-- The edge that asserts `rst` (R180). -/
def resetEdge : Edge := ⟨true, false, 0x0000⟩

/-- The inputs the next step samples. -/
def nextEdge (s : State) : Edge := s.edges.headD idleEdge

/-- Beginning a step: its edge is taken, `resp` is 0 and no hook call has been made (R70, R71, R74). -/
def beginStep (s : State) : State := { s with edges := s.edges.tail, resp := 0, hooks := [] }

/-- RESET: every element takes its value of R31, `resp` is 0, no hook call is made; the cartridge stays as it is (R180,
R181). -/
def resetBlock (s : State) : State := { State.reset with edges := s.edges, cart := s.cart }

/-- The step of a reserved class or of `cmd_valid = 0`: idle, no state changes and `resp` is 0 (R71, R90). -/
def idleStep (s : State) : State := respondZero s

/-! ### Outputs that are functions of the state (R70) -/

/-- The output `irq`, equal to `IRQ` at all times (R166). -/
def irqOutput (s : State) : Bool := s.irq

/-- The output `dbg_scanline`: `SCANLINE` as a 10-bit two's-complement number (R70). -/
def dbgScanline (s : State) : BitVec 10 := BitVec.ofInt 10 s.scanline

/-- The output `dbg_cycle`, 9 bits (R70). -/
def dbgCycle (s : State) : BitVec 9 := BitVec.ofNat 9 s.cycle

/-- The output `diag_data` for `diag_sel` and `diag_addr`; reading it is not an operation (R70). -/
def diagData (s : State) (sel : BitVec 1) (addr : BitVec 16) : Byte := s.diag.read (diagKey sel addr.toNat)

end Sys2Proof.Machine
end

