-- ==== Sys2Proof/Machine/Port.lean ====
section
/-! DEFINITION. The 16 port operations (spec 40_port_operations.md R100 to R117). -/

namespace Sys2Proof.Machine

/-- RD_CTRL: responds 0x00 and does nothing else (spec R101). Control is "not readable": the value of `CTRL` does not leak. -/
def execRdCtrl (s : State) : Result := noOpRead s

/-- RD_MASK: responds 0x00 and does nothing else (spec R103). Mask is "not readable". -/
def execRdMask (s : State) : Result := noOpRead s

/-- RD_OAMADDR: responds 0x00 and does nothing else (spec R107). "unimplemented (no-op)". -/
def execRdOamaddr (s : State) : Result := noOpRead s

/-- RD_OAMDATA: responds 0x00 and does nothing else (spec R109). "unimplemented (no-op)". -/
def execRdOamdata (s : State) : Result := noOpRead s

/-- RD_SCROLL: responds 0x00 and does nothing else (spec R111). "unimplemented (no-op)". -/
def execRdScroll (s : State) : Result := noOpRead s

/-- RD_ADDR: responds 0x00 and does nothing else (spec R113). PPU address is "not readable": `VADDR` does not leak, `LATCH` is not touched. -/
def execRdAddr (s : State) : Result := noOpRead s

/-- WR_STATUS `d`: `d` is ignored (spec R106). Status is "not writable"; neither `VBLANK` nor `LATCH` is cleared. -/
def execWrStatus (_d : Byte) (s : State) : Result := noOpWrite s

/-- WR_OAMADDR `d`: `d` is ignored (spec R108). "unimplemented (no-op)"; there is no OAM address register. -/
def execWrOamaddr (_d : Byte) (s : State) : Result := noOpWrite s

/-- WR_OAMDATA `d`: `d` is ignored (spec R110). "unimplemented (no-op)"; there is no sprite memory. -/
def execWrOamdata (_d : Byte) (s : State) : Result := noOpWrite s

/-- WR_SCROLL `d`: `d` is ignored (spec R112). "unimplemented (no-op)"; it does not toggle `LATCH` and does not touch `VADDR`. -/
def execWrScroll (_d : Byte) (s : State) : Result := noOpWrite s

/-- WR_CTRL `d`: `CTRL <- d`, all eight bits; `IRQ` is neither raised nor cleared (R102, R179). -/
def execWrCtrl (d : Byte) (s : State) : Result := .next (respondZero { s with ctrl := d })

/-- WR_MASK `d`: `MASK <- d`, all eight bits (R104). -/
def execWrMask (d : Byte) (s : State) : Result := .next (respondZero { s with mask := d })

/-- RD_STATUS: the status byte with `VBLANK` as it was, then `VBLANK <- 0` and `LATCH <- 0`; `IRQ` is not touched
(R105, R178). -/
def execRdStatus (s : State) : Result :=
  .next (respondByte (statusByte s.vblank s.sprite0 s.sprovf s.rbuf) { s with vblank := false, latch := false })

/-- WR_ADDR `d`: the high half of `VADDR` when `LATCH = 0`, the low half when it is 1; `LATCH` toggles (R114). -/
def execWrAddr (d : Byte) (s : State) : Result :=
  .next (respondZero
    (if s.latch then { s with vaddr := withLowHalf s.vaddr d, latch := false }
     else { s with vaddr := withHighHalf s.vaddr d, latch := true }))

/-- The byte RD_DATA responds with: the fresh one when `VADDR >= 0x3F00`, on the 15-bit value before the increment, else
the old `RBUF` (R115, conflict C9). -/
def dataPortResponse (v : VramAddr) (fresh stale : Byte) : Byte := if paletteBase ≤ v.toNat then fresh else stale

/-- RD_DATA: `RBUF` is loaded through the router, the response is the fresh byte or the old `RBUF`, then `VADDR` steps
(R115, R117). -/
def execRdData (s : State) : Result :=
  let r := memRead (dataPortAddr s.vaddr) s
  .next (respondByte (dataPortResponse s.vaddr r.1 s.rbuf) { r.2 with rbuf := r.1, vaddr := nextVaddr s.vaddr })

/-- WR_DATA `d`: a write through the router, then `VADDR` steps; `RBUF` is not touched (R116, R117). -/
def execWrData (d : Byte) (s : State) : Result :=
  .next (respondZero { memWrite (dataPortAddr s.vaddr) d s with vaddr := nextVaddr s.vaddr })

end Sys2Proof.Machine
end

