-- ==== Sys2Proof/Machine/Timing.lean ====
section
/-! DEFINITION. TICK and IRQ_ACK (spec 41_timing_fsm.md R130 to R136). -/

namespace Sys2Proof.Machine

/-- First part of TICK: at (−1, 1), `VBLANK <- 0` (R131). -/
def tickClearVblank (s : State) : State :=
  if atVblankClear s.scanline s.cycle then { s with vblank := false } else s

/-- Second part of TICK: at (241, 1), `VBLANK <- 1`, and the request is raised if `NMI_EN` is 1 at that moment (R132). -/
def tickSetVblank (s : State) : State :=
  if atVblankSet s.scanline s.cycle then
    (if ctrlNmiEn s.ctrl then raiseIrq { s with vblank := true } else { s with vblank := true })
  else s

/-- The cycle after a TICK: plus 1, and 0 when the sum is 341 (R133). -/
def nextCycle (cycle : Nat) : Nat := if cycle + 1 = cyclesPerLine then 0 else cycle + 1

/-- Does this TICK complete a frame: the cycle wraps and the scanline reaches 261 (R134). -/
def frameDone (scanline : Int) (cycle : Nat) : Bool := cycle + 1 == cyclesPerLine && scanline + 1 == scanlineEnd

/-- The scanline after a TICK: it gains 1 when the cycle wraps, and 261 becomes −1 (R133, R134). -/
def nextScanline (scanline : Int) (cycle : Nat) : Int :=
  if cycle + 1 = cyclesPerLine then (if scanline + 1 = scanlineEnd then -1 else scanline + 1) else scanline

/-- Third and fourth parts of TICK: the position advances, and `TICKS` gains 1 (R130, R133, R134). -/
def tickAdvance (s : State) : State :=
  { s with cycle := nextCycle s.cycle, scanline := nextScanline s.scanline s.cycle, ticks := s.ticks + 1 }

/-- TICK: the two tests look at the position as it is when TICK starts, then the position advances; the response is
`frame_done` in bit 0 (R130, R74). -/
def execTick (s : State) : Result :=
  .next (respond ((BitVec.ofBool (frameDone s.scanline s.cycle)).setWidth 32)
    (tickAdvance (tickSetVblank (tickClearVblank s))))

/-- IRQ_ACK: `IRQ <- 0`, nothing else (R136). -/
def execIrqAck (s : State) : Result := .next (respondZero (acknowledgeIrq s))

end Sys2Proof.Machine
end

