-- ==== Sys2Proof/Machine/Decoder.lean ====
section
/-! DEFINITION. The tile bitmap unpacker, the palette lookup, the RGBA formatter, COLOR and DECODE (spec 42_decoder.md
R140 to R150). -/

namespace Sys2Proof.Machine

/-- Lane `col` of `UNPACK_ROW(lo, hi)`: `{hi[7 − col], lo[7 − col]}` (R141). -/
def unpackLane (lo hi : Byte) (col : Nat) : BitVec 2 :=
  BitVec.ofBool (hi.getLsbD (7 - col)) ++ BitVec.ofBool (lo.getLsbD (7 - col))

/-- `UNPACK_ROW(lo, hi)`: the eight colour indices of a tile row, leftmost first (R141). -/
def unpackRow (lo hi : Byte) : List (BitVec 2) := (List.range 8).map (unpackLane lo hi)

/-- `LOOKUP(b)`: the palette-table entry of the low 6 bits (R142). -/
def lookup (b : Byte) : Rgb := Config.palette (b.extractLsb' 0 6)

/-- The alpha byte of every pixel (R143). -/
def alphaByte : Byte := 0xFF

/-- `RGBA(r, g, b)` as a response: red in bits 7:0, then green, blue, and alpha in bits 31:24 (R74, R143). -/
def rgba (c : Rgb) : Resp := alphaByte ++ c.b ++ c.g ++ c.r

/-- Byte `c` of a pixel in the order red, green, blue, alpha (R143, R149). -/
def pixelByte (p : Resp) (c : Nat) : Byte := p.extractLsb' (8 * c) 8

/-- The pixel COLOR `ci`, `ps` gives, and the state after its one router read (R144). -/
def colour (ci : BitVec 2) (ps : BitVec 3) (s : State) : Resp × State :=
  let r := memRead (colorAddr ci ps) s
  (rgba (lookup r.1), r.2)

/-- COLOR `ci`, `ps`: one router read in palette RAM, the lookup, the pixel as response (R144). -/
def execColor (ci : BitVec 2) (ps : BitVec 3) (s : State) : Result :=
  let r := colour ci ps s
  .next (respond r.1 r.2)

/-- Writing a pixel's four bytes to a view from byte `k` on (R146). -/
def writePixel (m : Memory) (k : Nat) (p : Resp) : Memory :=
  (((m.write k (pixelByte p 0)).write (k + 1) (pixelByte p 1)).write (k + 2) (pixelByte p 2)).write (k + 3) (pixelByte p 3)

/-- The x of column `col` of a tile row: `tx × 8 + col` (R146). -/
def pixelX (j : TileRow) (col : Nat) : Nat := j.tx.toNat * 8 + col

/-- The y of a tile row: `ty × 8 + row` (R146). -/
def pixelY (j : TileRow) : Nat := j.ty.toNat * 8 + j.row.toNat

/-- The innermost body of DECODE: one column of a tile row is coloured and written (R146). -/
def decodeColumn (ti : BitVec 1) (ps : BitVec 3) (j : TileRow) (lo hi : Byte) (s : State) (col : Nat) : State :=
  let r := colour (unpackLane lo hi col) ps s
  { r.2 with diag := writePixel r.2.diag (diagKey ti (pixelIndex (pixelX j col) (pixelY j))) r.1 }

/-- The body of DECODE for one tile row: low plane, high plane, then the eight columns from the left (R146, R150). -/
def decodeRow (ti : BitVec 1) (ps : BitVec 3) (s : State) (j : TileRow) : State :=
  let lo := memRead (lowPlaneAddr ti j) s
  let hi := memRead (highPlaneAddr ti j) lo.2
  (List.range 8).foldl (decodeColumn ti ps j lo.1 hi.1) hi.2

/-- The tile rows in the order of DECODE's loops: `ty`, then `tx`, then `row` (R146, R150). -/
def tileRows : List TileRow :=
  (List.range 16).flatMap fun ty => (List.range 16).flatMap fun tx => (List.range 8).map fun row =>
    ⟨BitVec.ofNat 4 ty, BitVec.ofNat 4 tx, BitVec.ofNat 3 row⟩

/-- DECODE `ti`, `ps`: every tile row of the bank, through the router, into `DIAG[ti]` (R146). -/
def execDecode (ti : BitVec 1) (ps : BitVec 3) (s : State) : Result :=
  .next (respondZero (tileRows.foldl (decodeRow ti ps) s))

end Sys2Proof.Machine
end

