-- ==== Sys2Proof/Machine/Dispatch.lean ====
section
/-! DEFINITION. One arm per operation: each calls the meaning of its operation (spec 30_encoding.md R75). -/

namespace Sys2Proof.Machine

def exec (i : Instr) (s : State) : Host.Outcome State Fault Refusal :=
  match i with
  | .rdCtrl => Sys2Proof.Machine.execRdCtrl s
  | .rdMask => Sys2Proof.Machine.execRdMask s
  | .rdStatus => Sys2Proof.Machine.execRdStatus s
  | .rdOamaddr => Sys2Proof.Machine.execRdOamaddr s
  | .rdOamdata => Sys2Proof.Machine.execRdOamdata s
  | .rdScroll => Sys2Proof.Machine.execRdScroll s
  | .rdAddr => Sys2Proof.Machine.execRdAddr s
  | .rdData => Sys2Proof.Machine.execRdData s
  | .wrCtrl d => Sys2Proof.Machine.execWrCtrl d s
  | .wrMask d => Sys2Proof.Machine.execWrMask d s
  | .wrStatus d => Sys2Proof.Machine.execWrStatus d s
  | .wrOamaddr d => Sys2Proof.Machine.execWrOamaddr d s
  | .wrOamdata d => Sys2Proof.Machine.execWrOamdata d s
  | .wrScroll d => Sys2Proof.Machine.execWrScroll d s
  | .wrAddr d => Sys2Proof.Machine.execWrAddr d s
  | .wrData d => Sys2Proof.Machine.execWrData d s
  | .tick => Sys2Proof.Machine.execTick s
  | .irqAck => Sys2Proof.Machine.execIrqAck s
  | .color ci ps => Sys2Proof.Machine.execColor ci ps s
  | .decode ti ps => Sys2Proof.Machine.execDecode ti ps s

end Sys2Proof.Machine
end

