-- ==== Sys2Proof/Machine/Boundary.lean ====
section
/-! DEFINITION. What one clock edge does at the block's boundary (spec 30_encoding.md R70, R71, R90;
70_reset_and_hazards.md R180). -/

namespace Sys2Proof.Machine

/-- What an edge does to the state in which it is sampled: RESET if `rst`, else the operation `cmd` decodes to if
`cmd_valid`, else nothing (R70, R71, R90, R180). -/
def onEdge (e : Edge) (s : State) : Host.Outcome State Fault Refusal :=
  if e.rst then .next (resetBlock s)
  else if e.cmdValid then
    match decode e.cmd with
    | .ok i => exec i s
    | .error _ => .next (idleStep s)
  else .next (idleStep s)

end Sys2Proof.Machine
end

