-- ==== Sys2Proof/Machine/Step.lean ====
section
/-! DEFINITION. One step of the block: one clock edge (spec 30_encoding.md R70, R71, R90; 70_reset_and_hazards.md R180). -/

namespace Sys2Proof.Machine

/-- One step: the next edge is taken from the pending inputs, and the block does what it says. -/
def step (s : State) : Host.Outcome State Fault Refusal := onEdge (nextEdge s) (beginStep s)

/-- The state with the word presented at the next clock edge: `rst = 0`, `cmd_valid = 1`, `cmd` the word, before every
edge already pending. It stands for the surroundings issuing the command (assumption log 3). -/
def State.withFetchWord (s : State) (nbits w : Nat) : State :=
  { s with edges := ⟨false, true, firstWord nbits w⟩ :: s.edges }

end Sys2Proof.Machine
end

