-- ==== Sys2Proof/Machine/Trace.lean ====
section
/-! DEFINITION. The textual operations and pseudo-operations as clock edges (spec 30_encoding.md R94, R95). -/

namespace Sys2Proof.Machine

/-- The two WR_ADDR of `SETADDR a`: the high byte, then the low byte (R95). -/
def setAddrOps (a : Nat) : List Instr := [.wrAddr (BitVec.ofNat 8 (a / 256)), .wrAddr (BitVec.ofNat 8 a)]

/-- The operations of `PEEK a`: one discarded RD_DATA below 0x3F00, none from there on (R95). At 0x3EFF `PEEK` is not
defined, and `TraceOp.wf` refuses it. -/
def peekOps (a : Nat) : List Instr :=
  setAddrOps a ++ (if a % 0x8000 < paletteBase then [.rdData, .rdData] else [.rdData])

/-- The TICKs from a position to the end of its frame: 89342 less the place of the position in the frame (R134, R135). -/
def ticksToFrameEnd (scanline : Int) (cycle : Nat) : Nat :=
  ticksPerFrame - ((scanline + 1).toNat * cyclesPerLine + cycle)

/-- The operations of a textual operation; none for `RESET`, which is no command word (R94, R95). `FRAME` ends with the
TICK that returns `frame_done = 1`, so its length depends on the position (assumption log 10). -/
def traceOps (s : State) : TraceOp → List Instr
  | .rd p => [readOfPort (BitVec.ofNat 3 p)]
  | .wr p d => [writeOfPort (BitVec.ofNat 3 p) (BitVec.ofNat 8 d)]
  | .tick => [.tick]
  | .irqAck => [.irqAck]
  | .color ci ps => [.color (BitVec.ofNat 2 ci) (BitVec.ofNat 3 ps)]
  | .decode ti ps => [.decode (BitVec.ofNat 1 ti) (BitVec.ofNat 3 ps)]
  | .reset => []
  | .sync => [.rdStatus]
  | .setAddr a => setAddrOps a
  | .poke a v => setAddrOps a ++ [.wrData (BitVec.ofNat 8 v)]
  | .peek a => peekOps a
  | .ticks n => List.replicate n .tick
  | .frame => List.replicate (ticksToFrameEnd s.scanline s.cycle) .tick

/-- The clock edges of a textual operation issued in state `s` (R94, R95). -/
def traceEdges (s : State) (t : TraceOp) : List Edge :=
  match t with
  | .reset => [resetEdge]
  | t => (traceOps s t).map commandEdge

end Sys2Proof.Machine
end

