-- ==== Sys2Proof/Safety.lean ====
section
/-! DEFINITION. The terms claims use: the invariants of a reachable state (spec 10_state.md R30), no cartridge and a steady
cartridge (20_memory.md R48, 42_decoder.md R147), and a cartridge as the oracle of R48 and R49. -/

namespace Sys2Proof.Machine

/-- The palette cells that the alias of R53 makes unreachable (R24). -/
def aliasCells : List Nat := [0x10, 0x14, 0x18, 0x1C]

/-- The invariants of every reachable state (R30), and with them that each bank is in canonical form and inside its
size. `VADDR < 2^15` holds by its type. -/
structure State.Inv (s : State) : Prop where
  scanline_ge : -1 ≤ s.scanline
  scanline_le : s.scanline ≤ 260
  cycle_le : s.cycle ≤ 340
  sprite0_zero : s.sprite0 = false
  sprovf_zero : s.sprovf = false
  alias_zero : ∀ i ∈ aliasCells, s.pal.read i = 0x00
  nt_zero : ∀ k, s.nt.read k = 0x00
  pat_wf : s.pat.wf
  nt_wf : s.nt.wf
  pal_wf : s.pal.wf
  diag_wf : s.diag.wf
  pat_below : s.pat.below 8192
  nt_below : s.nt.below 2048
  pal_below : s.pal.below 32
  diag_below : s.diag.below 131072

/-- No cartridge claims anything from here on (R48, `NoCart`). -/
def State.NoCart (s : State) : Prop := s.cart = []

/-- Every call of a list is a read that the cartridge answers as `f` says, the same for the same address (R147). -/
def SteadyReads (f : InternalAddr → Option Byte) (calls : List HookCall) : Prop :=
  ∀ c ∈ calls, c.we = false ∧ c.answer.byte = f c.addr

/-- The byte `MemRead(a, 1)` returns when the cartridge answers reads as `f` says (R46, R147). -/
def steadyRead (f : InternalAddr → Option Byte) (s : State) (a : RouterAddr) : Byte :=
  (f (maskAddr a)).getD (bankRead s (maskAddr a))

/-- The cartridge as an oracle with a state of its own: `CartRead` is `S × a14 -> S × (byte or unclaimed)` and `CartWrite`
is `S × a14 × byte -> S × bool` (R48, R49). -/
structure Oracle where
  /-- The cartridge's state. -/
  S : Type
  /-- `CartRead`. -/
  read : S → InternalAddr → S × Option Byte
  /-- `CartWrite`. -/
  write : S → InternalAddr → Byte → S × Bool

/-- The answers in a list of hook calls, oldest first, are those the oracle gives from state `q` on (R48, R49). -/
def Oracle.Gives (o : Oracle) : o.S → List HookCall → Prop
  | _, [] => True
  | q, c :: cs =>
    if c.we then c.answer.claim = (o.write q c.addr c.wdata).2 ∧ o.Gives (o.write q c.addr c.wdata).1 cs
    else c.answer.byte = (o.read q c.addr).2 ∧ o.Gives (o.read q c.addr).1 cs

end Sys2Proof.Machine
end

