-- ==== Sys2Proof/Certificates/Slice0/Obligations.lean ====
section
/-! DEFINITION. The statements for the provers. Each docstring names the rule of the spec it formalises, or says that it
rests on a decision or an inference the spec marks as its own, or on a choice of the model. -/

open Sys2Proof Sys2Proof.Machine

/-! ### The command word -/

/-- Words written out from R72's format decode to the operations they stand for (the words of vectors V-ENC-1 to V-ENC-16;
the packing is decision D2). -/
def Obligations.SpecWordsDecodeAsListed : Prop :=
  decode 0x0200 = .ok .rdStatus ∧ decode 0x02FF = .ok .rdStatus ∧ decode 0x0E3F = .ok (.wrAddr 0x3F) ∧
  decode 0x0F00 = .ok (.wrData 0x00) ∧ decode 0x0700 = .ok .rdData ∧ decode 0x0880 = .ok (.wrCtrl 0x80) ∧
  decode 0x1000 = .ok .tick ∧ decode 0x1ABC = .ok .tick ∧ decode 0x2FFF = .ok .irqAck ∧
  decode 0x3005 = .ok (.color 1 1) ∧ decode 0x301F = .ok (.color 3 7) ∧ decode 0x3FE0 = .ok (.color 0 0) ∧
  decode 0x4009 = .ok (.decode 1 1) ∧ decode 0x4FF0 = .ok (.decode 0 0) ∧
  decode 0x5000 = .error .reservedClass ∧ decode 0xFFFF = .error .reservedClass

/-- Decoding the canonical word of a well-formed operation gives the operation, with every operand at every value (R72;
the packing is decision D2). -/
def Obligations.DecodeOfEncodeIsIdentity : Prop :=
  ∀ i : Instr, i.wf = true → decode (encode i) = .ok i

/-- A word decodes to an operation exactly when its bits outside the ignored ones (R91) are the operation's canonical word:
no bit an operation reads is dropped, and no ignored bit matters. Decision D2. -/
def Obligations.DecodeReadsExactlyTheSignificantBits : Prop :=
  ∀ (w : Cmd) (i : Instr), decode w = .ok i ↔ w &&& significantBits i = encode i

/-- The 20 rows of the opcode table are disjoint and, with the reserved classes 0x5 to 0xF, cover all 65536 words; a word
selects the one row of the operation it decodes to (R75, R90; decisions D2, D28). -/
def Obligations.OpcodeRowsPartitionTheWords : Prop :=
  ∀ w : Cmd,
    (∀ i, decode w = .ok i → (opcodeTable.filter fun r => r.selects w).map OpcodeRow.mnemonic = [mnemonicOf i]) ∧
    (decode w = .error .reservedClass ↔ 5 ≤ w.toNat / 4096) ∧
    (decode w = .error .reservedClass → opcodeTable.filter (fun r => r.selects w) = [])

/-! ### The step -/

/-- A step whose edge presents a word that decodes to a well-formed operation runs that operation, on the state from which
the edge is taken and in which `resp` is 0 and no hook call has been made yet. So does a step after `withFetchWord`.
R71 (decision D1); that inputs and outputs stand in State is the model's choice (assumption log 1, 3, 4). -/
def Obligations.StepRunsTheDecodedOperation : Prop :=
  (∀ (s : State) (w : Cmd) (rest : List Edge) (i : Instr),
    s.edges = ⟨false, true, w⟩ :: rest → decode w = .ok i → i.wf = true →
    step s = exec i { s with edges := rest, resp := 0, hooks := [] }) ∧
  (∀ (s : State) (n w : Nat) (i : Instr),
    decodeTableWord n w = some i → step (s.withFetchWord n w) = exec i { s with resp := 0, hooks := [] })

/-- A step with `rst = 0` and `cmd_valid = 0`, or with a word of a reserved class, changes nothing and responds 0 (R71,
R90; decisions D1, D28). With no input pending the step is idle too: that is the model's choice (assumption log 1). -/
def Obligations.IdleStepsChangeNothing : Prop :=
  (∀ (s : State) (e : Edge) (rest : List Edge),
    s.edges = e :: rest → e.rst = false → (e.cmdValid = false ∨ decode e.cmd = .error .reservedClass) →
    step s = .next { s with edges := rest, resp := 0, hooks := [] }) ∧
  (∀ s : State, s.edges = [] → step s = .next { s with resp := 0, hooks := [] })

/-- A step with `rst = 1` performs RESET whatever `cmd_valid` and `cmd` are: every element takes its reset value, `resp` is
0, no hook call is made, and the cartridge is left alone (R180, R181; decisions D31, D35). -/
def Obligations.ResetEdgeWinsOverTheCommand : Prop :=
  ∀ (s : State) (valid : Bool) (w : Cmd) (rest : List Edge),
    s.edges = ⟨true, valid, w⟩ :: rest → step s = .next { State.reset with edges := rest, cart := s.cart }

/-- The values of R31's table: position (−1, 0), every register, flag and byte 0 (decisions D11, D12), and no cartridge
attached (D13). -/
def Obligations.ResetLeavesTheListedValues : Prop :=
  State.reset.scanline = -1 ∧ State.reset.cycle = 0 ∧
  State.reset.ctrl = 0x00 ∧ State.reset.mask = 0x00 ∧ State.reset.vblank = false ∧ State.reset.sprite0 = false ∧
  State.reset.sprovf = false ∧ State.reset.latch = false ∧ State.reset.vaddr = 0x0000 ∧ State.reset.rbuf = 0x00 ∧
  State.reset.irq = false ∧ State.reset.ticks = 0 ∧
  (∀ k, State.reset.pat.read k = 0x00) ∧ (∀ k, State.reset.nt.read k = 0x00) ∧ (∀ k, State.reset.pal.read k = 0x00) ∧
  (∀ k, State.reset.diag.read k = 0x00) ∧ State.reset.NoCart

/-- No exception exists, and every operation, with every operand value and in every state, completes and gives a next state
(R160); so does every step. -/
def Obligations.EveryOperationCompletes : Prop :=
  IsEmpty Fault ∧ (∀ (i : Instr) (s : State), ∃ t, exec i s = .next t) ∧ (∀ s : State, ∃ t, step s = .next t)

/-! ### The port operations -/

/-- The six no-op port reads respond 0x00 and leave the whole state unchanged (R101, R103, R107, R109, R111, R113; the value
0x00 is decision D10). -/
def Obligations.NoOpPortReadsRespondZero : Prop :=
  ∀ i ∈ [Instr.rdCtrl, .rdMask, .rdOamaddr, .rdOamdata, .rdScroll, .rdAddr], ∀ s : State,
    exec i s = .next { s with resp := 0 }

/-- The four no-op port writes, by their words, drop the byte and leave the whole state unchanged; in particular WR_STATUS
clears neither `VBLANK` nor `LATCH`, and WR_SCROLL touches neither `LATCH` nor `VADDR` (R106, R108, R110, R112). -/
def Obligations.NoOpPortWritesDropTheByte : Prop :=
  ∀ (d : Byte),
    decode (0x0A00 ||| d.setWidth 16) = .ok (.wrStatus d) ∧ decode (0x0B00 ||| d.setWidth 16) = .ok (.wrOamaddr d) ∧
    decode (0x0C00 ||| d.setWidth 16) = .ok (.wrOamdata d) ∧ decode (0x0D00 ||| d.setWidth 16) = .ok (.wrScroll d) ∧
    ∀ i ∈ [Instr.wrStatus d, .wrOamaddr d, .wrOamdata d, .wrScroll d], ∀ s : State, exec i s = .next { s with resp := 0 }

/-- WR_CTRL, the word `0x0800 | d`, stores all eight bits and changes nothing else: it neither raises nor clears `IRQ`, and whatever `CTRL` holds,
its increment-mode bit with it, the data port steps `VADDR` by 1 (R102). -/
def Obligations.WrCtrlStoresTheByteAlone : Prop :=
  (∀ d : Byte, decode (0x0800 ||| d.setWidth 16) = .ok (.wrCtrl d)) ∧
  (∀ (d : Byte) (s : State), exec (.wrCtrl d) s = .next { s with ctrl := d, resp := 0 }) ∧
  (∀ (c : Byte) (s : State), ∃ t, exec .rdData { s with ctrl := c } = .next t ∧ t.vaddr = s.vaddr + 1) ∧
  (∀ (c d : Byte) (s : State), ∃ t, exec (.wrData d) { s with ctrl := c } = .next t ∧ t.vaddr = s.vaddr + 1)

/-- WR_MASK, the word `0x0900 | d`, stores all eight bits and changes nothing else, and no operation reads a bit of `MASK`: with another value in
`MASK` every operation does the same and answers the same, so the write changes no later response (R104). -/
def Obligations.WrMaskStoresAByteNothingReads : Prop :=
  (∀ d : Byte, decode (0x0900 ||| d.setWidth 16) = .ok (.wrMask d)) ∧
  (∀ (d : Byte) (s : State), exec (.wrMask d) s = .next { s with mask := d, resp := 0 }) ∧
  (∀ (i : Instr) (s t : State) (m : Byte), exec i s = .next t → (∀ d, i ≠ .wrMask d) →
    exec i { s with mask := m } = .next { t with mask := m })

/-- RD_STATUS responds with `VBLANK`, `SPRITE0`, `SPROVF` in bits 7, 6, 5 and the low five bits of `RBUF`, all as they were,
and clears `VBLANK` and `LATCH` and nothing else (R79, R105; decisions D8, D34). -/
def Obligations.RdStatusAssemblesAndClears : Prop :=
  ∀ s : State, ∃ t, exec .rdStatus s = .next t ∧
    t = { s with vblank := false, latch := false, resp := t.resp } ∧
    t.resp.getLsbD 7 = s.vblank ∧ t.resp.getLsbD 6 = s.sprite0 ∧ t.resp.getLsbD 5 = s.sprovf ∧
    (∀ n < 5, t.resp.getLsbD n = s.rbuf.getLsbD n) ∧ (∀ n, 8 ≤ n → t.resp.getLsbD n = false)

/-- RD_STATUS clears `VBLANK` and `LATCH` and neither reads nor writes `IRQ`: it never raises it, and with the other value in
`IRQ` it does the same (R178). -/
def Obligations.RdStatusNeitherReadsNorWritesIrq : Prop :=
  ∀ s : State, ∃ t, exec .rdStatus s = .next t ∧ t.vblank = false ∧ t.latch = false ∧ t.irq = s.irq ∧
    ∀ b : Bool, exec .rdStatus { s with irq := b } = .next { t with irq := b }

/-- WR_ADDR with `LATCH = 0` stores `d[6:0]` to `VADDR[14:8]`, keeps the low half and sets `LATCH`; with `LATCH = 1` it stores
`d` to `VADDR[7:0]`, keeps the high half and clears `LATCH`; nothing else changes (R80, R114; decision D4). -/
def Obligations.WrAddrStoresOneHalf : Prop :=
  ∀ (d : Byte) (s : State), ∃ t, exec (.wrAddr d) s = .next t ∧
    t = { s with vaddr := t.vaddr, latch := !s.latch, resp := 0 } ∧
    (s.latch = false → t.vaddr.toNat = (d.toNat % 128) * 256 + s.vaddr.toNat % 256) ∧
    (s.latch = true → t.vaddr.toNat = s.vaddr.toNat / 256 * 256 + d.toNat)

/-- Two WR_ADDR from `LATCH = 0` compose `((hi << 8) | lo) mod 2^15` and leave `LATCH = 0`; everything else is as before (R85;
decision D4, conflict C1). -/
def Obligations.AddressPairComposesVaddr : Prop :=
  ∀ (s : State) (hi lo : Byte) (rest : List Edge),
    s.latch = false → s.edges = commandEdge (.wrAddr hi) :: commandEdge (.wrAddr lo) :: rest →
    ∃ t, Host.Core.run core 2 s = .next t ∧
      t.vaddr.toNat = (hi.toNat * 256 + lo.toNat) % 2 ^ 15 ∧
      t = { s with vaddr := t.vaddr, edges := rest, resp := 0, hooks := [] }

/-- An RD_STATUS between the halves of an address pair splits it: the second write is taken as a high half again, and the
next one as the low half (R191, R62: inferences of the spec from R105, R114). -/
def Obligations.StatusReadSplitsAnAddressPair : Prop :=
  ∀ (s : State) (a b c : Byte) (rest : List Edge),
    s.edges = commandEdge (.wrAddr a) :: commandEdge .rdStatus :: commandEdge (.wrAddr b) ::
      commandEdge (.wrAddr c) :: rest →
    ∃ t, Host.Core.run core 4 s = .next t ∧ t.latch = false ∧
      t.vaddr.toNat = (b.toNat * 256 + c.toNat) % 2 ^ 15

/-- A run of `n` WR_ADDR toggles `LATCH` `n` times, whatever the bytes, and no operation but WR_ADDR and RD_STATUS writes
`LATCH` (R118: an inference of the spec from R105, R114). -/
def Obligations.LatchAlternatesUnderWrAddr : Prop :=
  (∀ (ds : List Byte) (s : State) (rest : List Edge),
    s.edges = ds.map (fun d => commandEdge (.wrAddr d)) ++ rest →
    ∃ t, Host.Core.run core ds.length s = .next t ∧ t.edges = rest ∧ t.latch = (s.latch ^^ (ds.length % 2 == 1))) ∧
  (∀ (i : Instr) (s t : State), exec i s = .next t → t.latch ≠ s.latch → i = .rdStatus ∨ ∃ d, i = .wrAddr d)

/-- RD_DATA makes one hook call at `VADDR[13:0]`, loads `RBUF` with the cartridge's byte or else the bank's, responds with
that byte if `VADDR >= 0x3F00` and with the old `RBUF` otherwise, and then steps `VADDR` by 1 modulo 2^15; nothing else
changes (R115, R117; decisions D4, D5, D9). The `c_wdata` recorded on the read is the model's choice `wdataOnRead`, on whose
value nothing rests (assumption log 13). -/
def Obligations.RdDataLoadsTheBufferAndSteps : Prop :=
  ∀ s : State, ∃ (ans : CartAnswer) (fresh : Byte), ans = s.cart.headD unclaimed ∧
    fresh = (if ans.claim then ans.rdata else bankRead s (s.vaddr.setWidth 14)) ∧
    exec .rdData s = .next { s with
      rbuf := fresh
      vaddr := s.vaddr + 1
      cart := s.cart.tail
      hooks := ⟨false, s.vaddr.setWidth 14, wdataOnRead, ans⟩ :: s.hooks
      resp := (if 0x3F00 ≤ s.vaddr.toNat then fresh else s.rbuf).setWidth 32 }

/-- WR_DATA, the word `0x0F00 | d`, makes one hook call at `VADDR[13:0]` with the byte and steps `VADDR` by 1 modulo 2^15; `RBUF` and `LATCH` are not
touched. A claimed write changes no bank; an unclaimed one stores the byte in the pattern range, is dropped in the
name-table range, and in the palette range is stored at the aliased index, so 0x10, 0x14, 0x18, 0x1C land in 0x00, 0x04,
0x08, 0x0C; every other byte of the banks reads as before (R116). The banks' canonical form is an invariant of the model
(StepKeepsTheInvariant). -/
def Obligations.WrDataWritesThroughTheRouterAndSteps : Prop :=
  (∀ d : Byte, decode (0x0F00 ||| d.setWidth 16) = .ok (.wrData d)) ∧
  ∀ (s : State) (d : Byte), s.pat.wf → s.pal.wf →
    ∃ t, exec (.wrData d) s = .next t ∧
      t = { s with
        pat := t.pat
        pal := t.pal
        vaddr := s.vaddr + 1
        cart := s.cart.tail
        hooks := ⟨true, s.vaddr.setWidth 14, d, s.cart.headD unclaimed⟩ :: s.hooks
        resp := 0 } ∧
      ((s.cart.headD unclaimed).claim = true → t.pat = s.pat ∧ t.pal = s.pal) ∧
      ((s.cart.headD unclaimed).claim = false → s.vaddr.toNat % 0x4000 ≤ 0x1FFF →
        (∀ k, t.pat.read k = if k = s.vaddr.toNat % 0x4000 then d else s.pat.read k) ∧ t.pal = s.pal) ∧
      ((s.cart.headD unclaimed).claim = false → 0x2000 ≤ s.vaddr.toNat % 0x4000 → s.vaddr.toNat % 0x4000 ≤ 0x3EFF →
        t.pat = s.pat ∧ t.pal = s.pal) ∧
      ((s.cart.headD unclaimed).claim = false → 0x3F00 ≤ s.vaddr.toNat % 0x4000 →
        t.pat = s.pat ∧
        (∀ k, t.pal.read k = if k = (palidx (s.vaddr.setWidth 5)).toNat then d else s.pal.read k))

/-- Unclaimed data-port accesses to 0x2000 to 0x3EFF: the write is dropped without notice, the read gives 0x00 (it is what
`RBUF` is loaded with), and `VADDR` still steps (R199). -/
def Obligations.NameTableAccessesAreLost : Prop :=
  ∀ s : State, 0x2000 ≤ s.vaddr.toNat % 0x4000 → s.vaddr.toNat % 0x4000 ≤ 0x3EFF →
    (s.cart.headD unclaimed).claim = false →
    (∀ d : Byte, exec (.wrData d) s = .next { s with
      vaddr := s.vaddr + 1
      cart := s.cart.tail
      hooks := ⟨true, s.vaddr.setWidth 14, d, s.cart.headD unclaimed⟩ :: s.hooks
      resp := 0 }) ∧
    memReadValue (dataPortAddr s.vaddr) s = 0x00 ∧
    (∃ t, exec .rdData s = .next t ∧ t.rbuf = 0x00 ∧ t.vaddr = s.vaddr + 1 ∧ t.pat = s.pat ∧ t.pal = s.pal)

/-- The read delay, with no cartridge, of two RD_DATA from `VADDR = a`: below 0x3F00 the first responds the old `RBUF`; if
`a + 1` is below 0x3F00 too the second responds the byte that was at `a`; from `a = 0x3EFF` the second responds the byte at
0x3F00 instead (conflict C8); at 0x3F00 and above the first responds the byte at `a` at once and leaves it in `RBUF` (R119:
an inference of the spec from R115). -/
def Obligations.ReadDelayOfTheDataPort : Prop :=
  ∀ (s : State) (rest : List Edge), s.NoCart → s.edges = commandEdge .rdData :: commandEdge .rdData :: rest →
    ∃ t u, Host.Core.run core 1 s = .next t ∧ Host.Core.run core 2 s = .next u ∧
      (s.vaddr.toNat < 0x3F00 → t.resp = s.rbuf.setWidth 32) ∧
      (s.vaddr.toNat + 1 < 0x3F00 → u.resp = (bankRead s (s.vaddr.setWidth 14)).setWidth 32) ∧
      (s.vaddr.toNat = 0x3EFF → u.resp = (s.pal.read 0).setWidth 32) ∧
      (0x3F00 ≤ s.vaddr.toNat →
        t.resp = (bankRead s (s.vaddr.setWidth 14)).setWidth 32 ∧ t.rbuf = bankRead s (s.vaddr.setWidth 14))

/-- What a port operation cannot do: none writes the position, `TICKS`, `IRQ`, `DIAG`, `NT`, `SPRITE0` or `SPROVF`; only
RD_STATUS writes `VBLANK`; only RD_DATA and WR_DATA call the cartridge, and only WR_DATA writes `PAT` or `PAL` (R120: an
inference of the spec from R100 to R116). -/
def Obligations.PortOperationsLeaveTheRestAlone : Prop :=
  ∀ (i : Instr) (s t : State), exec i s = .next t →
    i ≠ .tick → i ≠ .irqAck → (∀ ci ps, i ≠ .color ci ps) → (∀ ti ps, i ≠ .decode ti ps) →
    t.scanline = s.scanline ∧ t.cycle = s.cycle ∧ t.ticks = s.ticks ∧ t.irq = s.irq ∧ t.diag = s.diag ∧ t.nt = s.nt ∧
    t.sprite0 = s.sprite0 ∧ t.sprovf = s.sprovf ∧
    (i ≠ .rdStatus → t.vblank = s.vblank) ∧
    (i ≠ .rdData → (∀ d, i ≠ .wrData d) → t.hooks = s.hooks ∧ t.cart = s.cart) ∧
    ((∀ d, i ≠ .wrData d) → t.pat = s.pat ∧ t.pal = s.pal)

/-! ### The router -/

/-- The internal map for an access the cartridge does not claim: the four rows of R54's table, each with what a read gives
and what a write does to every byte of the banks. The rows cover every masked address. -/
def Obligations.UnclaimedAccessesFollowTheMap : Prop :=
  ∀ (s : State) (a : RouterAddr) (v : Byte), (nextAnswer s).claim = false → s.pat.wf → s.pal.wf →
    (a.toNat % 0x4000 ≤ 0x0FFF →
      memReadValue a s = s.pat.read (patKey 0 (a.setWidth 12)) ∧
      (∀ k, (memWrite a v s).pat.read k = if k = patKey 0 (a.setWidth 12) then v else s.pat.read k) ∧
      (memWrite a v s).pal = s.pal) ∧
    (0x1000 ≤ a.toNat % 0x4000 → a.toNat % 0x4000 ≤ 0x1FFF →
      memReadValue a s = s.pat.read (patKey 1 (a.setWidth 12)) ∧
      (∀ k, (memWrite a v s).pat.read k = if k = patKey 1 (a.setWidth 12) then v else s.pat.read k) ∧
      (memWrite a v s).pal = s.pal) ∧
    (0x2000 ≤ a.toNat % 0x4000 → a.toNat % 0x4000 ≤ 0x3EFF →
      memReadValue a s = 0x00 ∧ (memWrite a v s).pat = s.pat ∧ (memWrite a v s).pal = s.pal) ∧
    (0x3F00 ≤ a.toNat % 0x4000 →
      memReadValue a s = s.pal.read (palidx (a.setWidth 5)).toNat ∧
      (∀ k, (memWrite a v s).pal.read k = if k = (palidx (a.setWidth 5)).toNat then v else s.pal.read k) ∧
      (memWrite a v s).pat = s.pat) ∧
    a.toNat % 0x4000 ≤ 0x3FFF

/-- The alias function: its table, its equivalent form, its image of 28 values, its idempotence, and that a byte written
through the router at palette offset 0x10, 0x14, 0x18 or 0x1C is read at 0x00, 0x04, 0x08 or 0x0C, and the other way round
(R53). -/
def Obligations.PaletteAliasIsObservableBothWays : Prop :=
  (∀ i : BitVec 5, palidx i =
    if i = 0x10 then 0x00 else if i = 0x14 then 0x04 else if i = 0x18 then 0x08 else if i = 0x1C then 0x0C else i) ∧
  (∀ i : BitVec 5, palidx i = if i.getLsbD 4 = true ∧ i.getLsbD 1 = false ∧ i.getLsbD 0 = false then i - 16 else i) ∧
  ((Finset.univ : Finset (Fin 32)).image fun i => palidx (BitVec.ofFin i)).card = 28 ∧
  (∀ i : BitVec 5, palidx (palidx i) = palidx i) ∧
  (∀ (s : State) (v : Byte), s.NoCart → s.pal.wf →
    ∀ p ∈ [((0x3F10 : RouterAddr), (0x3F00 : RouterAddr)), (0x3F14, 0x3F04), (0x3F18, 0x3F08), (0x3F1C, 0x3F0C)],
      memReadValue p.2 (memWrite p.1 v s) = v ∧ memReadValue p.1 (memWrite p.2 v s) = v)

/-- Every router access is offered to the cartridge once, at the masked address, before any bank. A claimed read returns the
cartridge's byte; a claimed write changes no bank; a read changes nothing but the hook's signals (R46, R47, R48, R49;
decision D13). The `c_wdata` recorded on a read is the model's choice `wdataOnRead`, on whose value nothing rests (assumption
log 13). -/
def Obligations.TheCartridgeHasFirstRefusal : Prop :=
  ∀ (s : State) (a : RouterAddr) (v : Byte),
    (memRead a s).2 = { s with
      cart := s.cart.tail
      hooks := ⟨false, BitVec.ofNat 14 a.toNat, wdataOnRead, s.cart.headD unclaimed⟩ :: s.hooks } ∧
    memWrite a v s = { s with
      pat := (memWrite a v s).pat
      pal := (memWrite a v s).pal
      cart := s.cart.tail
      hooks := ⟨true, BitVec.ofNat 14 a.toNat, v, s.cart.headD unclaimed⟩ :: s.hooks } ∧
    ((s.cart.headD unclaimed).claim = true →
      (memRead a s).1 = (s.cart.headD unclaimed).rdata ∧
      (memWrite a v s).pat = s.pat ∧ (memWrite a v s).pal = s.pal)

/-- The round trip: a read right after a write to the same router address, neither claimed, returns the byte written in the
pattern and palette ranges, and 0x00 in the name-table range (R56: an inference of the spec from R46, R47, R53). -/
def Obligations.RouterReadAfterWrite : Prop :=
  ∀ (s : State) (a : RouterAddr) (v : Byte), s.pat.wf → s.pal.wf →
    (nextAnswer s).claim = false → (nextAnswer (memWrite a v s)).claim = false →
    memReadValue a (memWrite a v s) =
      if 0x2000 ≤ a.toNat % 0x4000 ∧ a.toNat % 0x4000 ≤ 0x3EFF then 0x00 else v

/-- Disjointness: after an unclaimed write at `a`, the bank byte at `b` is the one written exactly where `a` and `b` reach the
same cell (equal masked addresses outside the name-table range, or both in the palette range with equal aliased index), and
the old one everywhere else (R57: an inference of the spec from R46, R47, R53). -/
def Obligations.RouterWritesOneCell : Prop :=
  ∀ (s : State) (a b : RouterAddr) (v : Byte), s.pat.wf → s.pal.wf → (nextAnswer s).claim = false →
    bankRead (memWrite a v s) (maskAddr b) =
      if (a.toNat % 0x4000 = b.toNat % 0x4000 ∧ a.toNat % 0x4000 ≤ 0x1FFF) ∨
         (0x3F00 ≤ a.toNat % 0x4000 ∧ 0x3F00 ≤ b.toNat % 0x4000 ∧ palidx (a.setWidth 5) = palidx (b.setWidth 5))
      then v else bankRead s (maskAddr b)

/-! ### Timing and the interrupt -/

/-- TICK, the words with class 0x1, whole: the vertical-blank clear at (−1, 1), the set and the raise at (241, 1), both on the position before it
advances; then the cycle, the scanline and the tick counter advance, and the response is 1 exactly when the scanline wraps
(R130, with R131 and R133 inside it). Nothing else changes. -/
def Obligations.TickAdvancesThePosition : Prop :=
  (∀ w : Cmd, decode w = .ok .tick ↔ w &&& 0xF000 = 0x1000) ∧
  ∀ s : State, exec .tick s = .next { s with
    vblank := if s.scanline = -1 ∧ s.cycle = 1 then false
      else if s.scanline = 241 ∧ s.cycle = 1 then true else s.vblank
    irq := if s.scanline = 241 ∧ s.cycle = 1 ∧ s.ctrl.getLsbD 7 = true then true else s.irq
    cycle := if s.cycle + 1 = 341 then 0 else s.cycle + 1
    scanline := if s.cycle + 1 = 341 then (if s.scanline + 1 = 261 then -1 else s.scanline + 1) else s.scanline
    ticks := s.ticks + 1
    resp := if s.cycle + 1 = 341 ∧ s.scanline + 1 = 261 then 1 else 0 }

/-- The closed form of the position: `n` TICKs from (−1, 0) leave `SCANLINE = floor(m / 341) − 1` and `CYCLE = m mod 341`
with `m = n mod 89342`, add `n` to `TICKS`, and the last of them responds `frame_done = 1` exactly when 89342 divides `n`
(R135: an inference of the spec from R130 to R134). -/
def Obligations.PositionAfterManyTicks : Prop :=
  ∀ (n : Nat) (s : State) (rest : List Edge), s.scanline = -1 → s.cycle = 0 →
    s.edges = List.replicate n (commandEdge .tick) ++ rest →
    ∃ t, Host.Core.run core n s = .next t ∧ t.edges = rest ∧
      t.scanline = ((n % 89342 / 341 : Nat) : Int) - 1 ∧ t.cycle = n % 89342 % 341 ∧ t.ticks = s.ticks + n ∧
      (0 < n → t.resp = if n % 89342 = 0 then 1 else 0)

/-- The vertical-blank window: after `n` TICKs from (−1, 0) with `VBLANK = 0`, `VBLANK = 1` exactly in the 6820 ticks from
number 82524 of each frame, and `IRQ = 1` exactly if it was, or `NMI_EN` is 1 and tick 82524 has passed (R135, R165, R197:
inferences of the spec and decisions D6, D14). -/
def Obligations.VblankWindowAfterManyTicks : Prop :=
  ∀ (n : Nat) (s : State) (rest : List Edge), s.scanline = -1 → s.cycle = 0 → s.vblank = false →
    s.edges = List.replicate n (commandEdge .tick) ++ rest →
    ∃ t, Host.Core.run core n s = .next t ∧
      (t.vblank = true ↔ 82524 ≤ n ∧ (n - 82524) % 89342 < 6820) ∧
      (t.irq = true ↔ s.irq = true ∨ (s.ctrl.getLsbD 7 = true ∧ 82524 ≤ n))

/-- `FRAME`: from a position in range, the TICKs of the pseudo-operation bring the position to (−1, 0), the last of them and
no earlier one responds `frame_done = 1`, and they are at most 89342 (R95, R134; decisions D17, D30). -/
def Obligations.FrameEndsWithFrameDone : Prop :=
  ∀ s : State, s.Inv → s.edges = traceEdges s .frame →
    s.edges.length ≤ 89342 ∧
    (∃ t, Host.Core.run core s.edges.length s = .next t ∧ t.scanline = -1 ∧ t.cycle = 0 ∧ t.resp = 1) ∧
    (∀ n, 0 < n → n < s.edges.length → ∃ t, Host.Core.run core n s = .next t ∧ t.resp = 0)

/-- The block has one interrupt source, enabled by `CTRL[7]`. A step raises `IRQ` exactly when its edge carries a TICK that
starts at (241, 1) with `CTRL[7] = 1`, and nothing else does (R162, R163, R132; that the enable is bit 7 is decision D6, and
the raise at (241, 1) rests on decision D15 too). -/
def Obligations.OnlyTheVblankTickRaisesIrq : Prop :=
  (∀ s t : State, step s = .next t → s.irq = false → t.irq = true →
    s.scanline = 241 ∧ s.cycle = 1 ∧ s.ctrl.getLsbD 7 = true ∧
    ∃ w rest, s.edges = ⟨false, true, w⟩ :: rest ∧ decode w = .ok .tick) ∧
  (∀ (s : State) (w : Cmd) (rest : List Edge), s.scanline = 241 → s.cycle = 1 → s.ctrl.getLsbD 7 = true →
    s.edges = ⟨false, true, w⟩ :: rest → decode w = .ok .tick → ∃ t, step s = .next t ∧ t.irq = true)

/-- `IRQ` is cleared by IRQ_ACK and by RESET and by nothing else (R165; IRQ_ACK is decision D14). -/
def Obligations.OnlyIrqAckAndResetClearIrq : Prop :=
  ∀ s t : State, step s = .next t → s.irq = true → t.irq = false →
    ∃ e rest, s.edges = e :: rest ∧ (e.rst = true ∨ (e.cmdValid = true ∧ decode e.cmd = .ok .irqAck))

/-- IRQ_ACK clears `IRQ` and changes nothing else (R136; decision D14). -/
def Obligations.IrqAckClearsIrqAlone : Prop :=
  ∀ s : State, exec .irqAck s = .next { s with irq := false, resp := 0 }

/-- Raising the interrupt changes exactly one bit: a TICK at (241, 1) with `NMI_EN = 1` differs from the same TICK with
`NMI_EN = 0` in `IRQ` alone, besides the bytes of `CTRL` themselves (R169, R132; bit 7 is decision D6). -/
def Obligations.RaisingIrqChangesOneBit : Prop :=
  ∀ (s : State) (c c' : Byte), s.scanline = 241 → s.cycle = 1 → c.getLsbD 7 = true → c'.getLsbD 7 = false →
    ∃ t, exec .tick { s with ctrl := c' } = .next t ∧ t.irq = s.irq ∧ t.vblank = true ∧
      exec .tick { s with ctrl := c } = .next { t with ctrl := c, irq := true }

/-- WR_CTRL does not read `VBLANK` and does not write `IRQ`: setting `NMI_EN` while `VBLANK = 1` raises nothing, and the flag is
set only by a TICK at (241, 1) (R179). -/
def Obligations.WrCtrlNeverRaisesIrq : Prop :=
  (∀ (d : Byte) (s : State), ∃ t, exec (.wrCtrl d) s = .next t ∧ t.irq = s.irq ∧
    ∀ b : Bool, exec (.wrCtrl d) { s with vblank := b } = .next { t with vblank := b }) ∧
  (∀ (i : Instr) (s t : State), exec i s = .next t → s.irq = false → t.irq = true →
    i = .tick ∧ s.scanline = 241 ∧ s.cycle = 1)

/-- The position and `TICKS` change only in a TICK and in RESET, and in range each TICK advances the position by one place in
the fixed cycle of 89342 places (R139: an inference of the spec from R130 to R134). -/
def Obligations.OnlyTickAndResetMoveThePosition : Prop :=
  (∀ s t : State, step s = .next t → (t.scanline ≠ s.scanline ∨ t.cycle ≠ s.cycle ∨ t.ticks ≠ s.ticks) →
    ∃ e rest, s.edges = e :: rest ∧ (e.rst = true ∨ (e.cmdValid = true ∧ decode e.cmd = .ok .tick))) ∧
  (∀ s t : State, exec .tick s = .next t → -1 ≤ s.scanline → s.scanline ≤ 260 → s.cycle ≤ 340 →
    (t.scanline + 1) * 341 + t.cycle = ((s.scanline + 1) * 341 + s.cycle + 1) % 89342)

/-! ### The decoder -/

/-- `UNPACK_ROW`: eight lanes, lane `col` being `2 × hi[7 − col] + lo[7 − col]` and depending on nothing else (R141; decision
D23). -/
def Obligations.UnpackRowCombinesThePlanes : Prop :=
  ∀ lo hi : Byte, (unpackRow lo hi).length = 8 ∧
    ∀ col < 8, ∃ p, (unpackRow lo hi)[col]? = some p ∧
      p.toNat = 2 * (hi.toNat / 2 ^ (7 - col) % 2) + lo.toNat / 2 ^ (7 - col) % 2

/-- COLOR makes one hook call at `0x3F00 + ps × 4 + ci` and responds with the palette-table entry of the low six bits of the
byte read, alpha 0xFF above it, red in the low byte; nothing else changes (R88, R142, R143, R144; decisions D19, D20, D21,
D26). The `c_wdata` recorded on the read is the model's choice `wdataOnRead`, on whose value nothing rests (assumption
log 13). -/
def Obligations.ColorRespondsThePalettePixel : Prop :=
  ∀ (ci : BitVec 2) (ps : BitVec 3) (s : State), ∃ (a : InternalAddr) (b : Byte) (p : Rgb),
    a = BitVec.ofNat 14 (0x3F00 + ps.toNat * 4 + ci.toNat) ∧
    b = (if (s.cart.headD unclaimed).claim then (s.cart.headD unclaimed).rdata else bankRead s a) ∧
    p = Config.palette (BitVec.ofNat 6 b.toNat) ∧
    exec (.color ci ps) s = .next { s with
      cart := s.cart.tail
      hooks := ⟨false, a, wdataOnRead, s.cart.headD unclaimed⟩ :: s.hooks
      resp := BitVec.ofNat 32 (p.r.toNat + p.g.toNat * 2 ^ 8 + p.b.toNat * 2 ^ 16 + 0xFF * 2 ^ 24) }

/-- With no cartridge, colour index 0 of palettes 4 to 7 is the cell of palettes 0 to 3, and index 0 of palette `ps` below 4
is its own cell `PAL[4 × ps]`, with no shared backdrop (R144 corner cases (a) and (b); decision D26). -/
def Obligations.ColorZeroSharesTheAliasedCell : Prop :=
  ∀ (s : State) (ps : BitVec 3), s.NoCart → ps.toNat < 4 →
    ∃ t u, exec (.color 0 ps) s = .next t ∧ exec (.color 0 (ps + 4)) s = .next u ∧ u.resp = t.resp ∧
      t.resp = rgba (Config.palette ((s.pal.read (4 * ps.toNat)).setWidth 6))

/-- DECODE completes; it makes 20480 hook calls and writes nothing but `DIAG[ti]`: the other view and every other element stay,
and it responds 0 (R146, R150; decisions D24, D25). -/
def Obligations.DecodeWritesOneViewAlone : Prop :=
  ∀ (ti : BitVec 1) (ps : BitVec 3) (s : State), ∃ (t : State) (calls : List HookCall), exec (.decode ti ps) s = .next t ∧
    calls.length = 20480 ∧
    t = { s with diag := t.diag, cart := s.cart.drop 20480, hooks := calls.reverse ++ s.hooks, resp := 0 } ∧
    (∀ n, (hn : n < calls.length) → calls[n].answer = s.cart.getD n unclaimed) ∧
    (∀ k < 65536, t.diag.read (diagKey (~~~ti) k) = s.diag.read (diagKey (~~~ti) k))

/-- The order of DECODE's router reads: the `j`-th tile row (`ty`, `tx`, `row` from the outer loop to the inner) makes calls
10 j to 10 j + 9, the low plane, the high plane 8 above it, and then for the columns from the left the palette address of the
colour index that the bytes just read give (R89, R145, R150; decisions D22, D23, D25). -/
def Obligations.DecodeReadsInLoopOrder : Prop :=
  ∀ (ti : BitVec 1) (ps : BitVec 3) (s : State), ∃ (t : State) (calls : List HookCall), exec (.decode ti ps) s = .next t ∧
    t.hooks = calls.reverse ++ s.hooks ∧ calls.length = 20480 ∧
    ∀ j < 2048, ∀ col < 8, ∃ cl ch cc : HookCall,
      calls[10 * j]? = some cl ∧ calls[10 * j + 1]? = some ch ∧ calls[10 * j + 2 + col]? = some cc ∧
      cl.we = false ∧ ch.we = false ∧ cc.we = false ∧
      cl.addr.toNat = ti.toNat * 0x1000 + j / 128 * 256 + j / 8 % 16 * 16 + j % 8 ∧
      ch.addr.toNat = cl.addr.toNat + 8 ∧
      cc.addr.toNat = 0x3F00 + ps.toNat * 4 +
        (2 * ((ch.answer.byte.getD (bankRead s ch.addr)).toNat / 2 ^ (7 - col) % 2) +
          (cl.answer.byte.getD (bankRead s cl.addr)).toNat / 2 ^ (7 - col) % 2)

/-- The closed form of one pixel: with a cartridge that answers the same for the same address throughout the operation, pixel
(x, y) of `DIAG[ti]` is the palette entry of the colour index its tile row gives, its four bytes in the order R, G, B, A at
`(y × 128 + x) × 4`, whatever the view held before (R45, R147, R149: inferences of the spec and decisions D19 to D24). For a cartridge with a
memory see DecodedPixelFromItsOwnCall. The
bank's canonical form is an invariant of the model (StepKeepsTheInvariant). -/
def Obligations.DecodedPixelClosedForm : Prop :=
  ∀ (ti : BitVec 1) (ps : BitVec 3) (s : State), s.diag.wf →
    ∃ (t : State) (calls : List HookCall), exec (.decode ti ps) s = .next t ∧ t.hooks = calls.reverse ++ s.hooks ∧
      ∀ f, SteadyReads f calls → ∀ x < 128, ∀ y < 128,
        ∃ (base lo hi ci : Nat) (p : Rgb),
          base = ti.toNat * 0x1000 + y / 8 * 256 + x / 8 * 16 ∧
          lo = (steadyRead f s (BitVec.ofNat 16 (base + y % 8))).toNat ∧
          hi = (steadyRead f s (BitVec.ofNat 16 (base + y % 8 + 8))).toNat ∧
          ci = 2 * (hi / 2 ^ (7 - x % 8) % 2) + lo / 2 ^ (7 - x % 8) % 2 ∧
          p = Config.palette ((steadyRead f s (BitVec.ofNat 16 (0x3F00 + ps.toNat * 4 + ci))).setWidth 6) ∧
          t.diag.read (diagKey ti ((y * 128 + x) * 4)) = p.r ∧
          t.diag.read (diagKey ti ((y * 128 + x) * 4 + 1)) = p.g ∧
          t.diag.read (diagKey ti ((y * 128 + x) * 4 + 2)) = p.b ∧
          t.diag.read (diagKey ti ((y * 128 + x) * 4 + 3)) = 0xFF

/-- One pixel under any cartridge, one whose answers depend on the history of calls too: pixel (x, y) of `DIAG[ti]` is the
palette entry of the byte that its own palette read got, call 2 + x mod 8 of the ten of its tile row, whatever the view held
before (R146, R149; decisions D19 to D25). Which address that call has is DecodeReadsInLoopOrder. The bank's canonical form is
an invariant of the model (StepKeepsTheInvariant). -/
def Obligations.DecodedPixelFromItsOwnCall : Prop :=
  ∀ (ti : BitVec 1) (ps : BitVec 3) (s : State), s.diag.wf →
    ∃ (t : State) (calls : List HookCall), exec (.decode ti ps) s = .next t ∧ t.hooks = calls.reverse ++ s.hooks ∧
      calls.length = 20480 ∧
      ∀ x < 128, ∀ y < 128, ∃ (c : HookCall) (p : Rgb),
        calls[10 * (y / 8 * 128 + x / 8 * 8 + y % 8) + 2 + x % 8]? = some c ∧
        p = Config.palette ((c.answer.byte.getD (bankRead s c.addr)).setWidth 6) ∧
        t.diag.read (diagKey ti ((y * 128 + x) * 4)) = p.r ∧
        t.diag.read (diagKey ti ((y * 128 + x) * 4 + 1)) = p.g ∧
        t.diag.read (diagKey ti ((y * 128 + x) * 4 + 2)) = p.b ∧
        t.diag.read (diagKey ti ((y * 128 + x) * 4 + 3)) = 0xFF

/-- Idempotence: with no cartridge, two DECODE with the same operands from states with the same `PAT` and `PAL` yield
byte-identical views, in particular one DECODE after another (R148: an inference of the spec from R140, R146). -/
def Obligations.DecodeIsIdempotent : Prop :=
  (∀ (ti : BitVec 1) (ps : BitVec 3) (s s' : State), s.NoCart → s'.NoCart → s.diag.wf → s'.diag.wf →
    s'.pat = s.pat → s'.pal = s.pal →
    ∃ t t', exec (.decode ti ps) s = .next t ∧ exec (.decode ti ps) s' = .next t' ∧
      ∀ k < 65536, t'.diag.read (diagKey ti k) = t.diag.read (diagKey ti k)) ∧
  (∀ (ti : BitVec 1) (ps : BitVec 3) (s : State), s.NoCart → s.diag.wf →
    ∃ t u, exec (.decode ti ps) s = .next t ∧ exec (.decode ti ps) t = .next u ∧
      ∀ k, u.diag.read k = t.diag.read k)

/-- Idempotence under a cartridge that answers the same both times: two DECODE with the same operands from states with the same
`PAT` and `PAL`, all of whose reads are answered by one and the same function of the address, yield byte-identical views, in
particular one DECODE after another (R148: an inference of the spec from R140, R146). The bank's canonical form is an invariant
of the model (StepKeepsTheInvariant). -/
def Obligations.DecodeRepeatsUnderASteadyCartridge : Prop :=
  (∀ (ti : BitVec 1) (ps : BitVec 3) (s s' : State), s.diag.wf → s'.diag.wf → s'.pat = s.pat → s'.pal = s.pal →
    ∃ (t t' : State) (calls calls' : List HookCall),
      exec (.decode ti ps) s = .next t ∧ exec (.decode ti ps) s' = .next t' ∧
      t.hooks = calls.reverse ++ s.hooks ∧ t'.hooks = calls'.reverse ++ s'.hooks ∧
      ∀ f, SteadyReads f calls → SteadyReads f calls' →
        ∀ k < 65536, t'.diag.read (diagKey ti k) = t.diag.read (diagKey ti k)) ∧
  (∀ (ti : BitVec 1) (ps : BitVec 3) (s : State), s.diag.wf →
    ∃ (t u : State) (calls calls' : List HookCall),
      exec (.decode ti ps) s = .next t ∧ exec (.decode ti ps) t = .next u ∧
      t.hooks = calls.reverse ++ s.hooks ∧ u.hooks = calls'.reverse ++ t.hooks ∧
      ∀ f, SteadyReads f calls → SteadyReads f calls' → ∀ k, u.diag.read k = t.diag.read k)

/-- The decoder reads no register: from two states that agree on `PAT`, `PAL`, `DIAG` and the cartridge's answers, whatever
their registers, flags and position hold, DECODE gives the same `DIAG` and COLOR the same response; it writes nothing but
`DIAG` (the hook's signals and `resp` are outputs), and TICK leaves `DIAG` alone and calls no hook (R140). -/
def Obligations.DecoderReadsNoRegister : Prop :=
  (∀ (ti : BitVec 1) (ps : BitVec 3) (s s' : State),
    s'.pat = s.pat → s'.pal = s.pal → s'.diag = s.diag → s'.cart = s.cart →
    ∃ t t', exec (.decode ti ps) s = .next t ∧ exec (.decode ti ps) s' = .next t' ∧ t'.diag = t.diag ∧
      t' = { s' with diag := t'.diag, cart := t'.cart, hooks := t'.hooks, resp := t'.resp }) ∧
  (∀ (ci : BitVec 2) (ps : BitVec 3) (s s' : State), s'.pal = s.pal → s'.cart = s.cart →
    ∃ t t', exec (.color ci ps) s = .next t ∧ exec (.color ci ps) s' = .next t' ∧ t'.resp = t.resp ∧
      t' = { s' with cart := t'.cart, hooks := t'.hooks, resp := t'.resp }) ∧
  (∀ s : State, ∃ t, exec .tick s = .next t ∧ t.diag = s.diag ∧ t.hooks = s.hooks ∧ t.cart = s.cart)

/-- A diagnostic view is a snapshot: a step changes `DIAG` only if its edge carries a DECODE (R26, R67, R194) or asserts `rst`
(R180; decisions D12, D31). That `DIAG` is state is the model's choice (assumption log 7). -/
def Obligations.OnlyDecodeAndResetWriteDiag : Prop :=
  ∀ s t : State, step s = .next t → t.diag ≠ s.diag →
    ∃ e rest, s.edges = e :: rest ∧
      (e.rst = true ∨ (e.cmdValid = true ∧ ∃ ti ps, decode e.cmd = .ok (.decode ti ps)))

/-! ### Invariants of the whole machine -/

/-- The invariants hold at reset: those of R30, which are inferences of the spec, by the values of R31 (decisions D11, D12); and
that every bank is in canonical form and inside its size, which is the model's own choice (assumption log 6). -/
def Obligations.ResetMeetsTheInvariant : Prop := State.reset.Inv

/-- Every step keeps the invariants: the position in range, `SPRITE0 = SPROVF = 0`, the four aliased palette cells and every
byte of `NT` 0 (R30: inferences of the spec), and every bank in canonical form and inside its size (the model's own). -/
def Obligations.StepKeepsTheInvariant : Prop :=
  ∀ s t : State, s.Inv → step s = .next t → t.Inv

/-- Only `CTRL[7]` of the control byte can change what the block does: with the other seven bits changed every operation does
and answers the same (R11, R77; decisions D6, D33). -/
def Obligations.OnlyNmiEnableOfCtrlIsRead : Prop :=
  ∀ (i : Instr) (s t : State) (c : Byte), exec i s = .next t → c.getLsbD 7 = s.ctrl.getLsbD 7 → (∀ d, i ≠ .wrCtrl d) →
    exec i { s with ctrl := c } = .next { t with ctrl := c }

/-- No operation reads or writes the name-table banks: whatever they hold, it does and answers the same (R23; decision D32). -/
def Obligations.NameTableBanksAreUnreachable : Prop :=
  ∀ (i : Instr) (s t : State) (m : Memory), exec i s = .next t →
    t.nt = s.nt ∧ exec i { s with nt := m } = .next { t with nt := m }

/-- The list of answers loses no cartridge for the calls of one operation: for every oracle with a state of its own and every
operation, some list of answers makes the operation's hook calls come out exactly as the oracle answers them, call by call (R48, R49; decision D13; the list
is the model's choice, assumption log 2). -/
def Obligations.EveryCartridgeOracleIsCovered : Prop :=
  ∀ (o : Oracle) (q : o.S) (i : Instr) (s : State), ∃ answers t calls,
    exec i { s with cart := answers } = .next t ∧ t.cart = [] ∧
    t.hooks = calls.reverse ++ s.hooks ∧ o.Gives q calls

/-- The outputs of the boundary: `irq` equals `IRQ`, `dbg_scanline` is `SCANLINE` in ten-bit two's complement, `dbg_cycle` is
`CYCLE`, and `diag_data` is the selected byte of `DIAG` (R70; decisions D1, D27). -/
def Obligations.OutputsShowTheState : Prop :=
  (∀ s : State, irqOutput s = s.irq) ∧
  (∀ s : State, s.Inv → (dbgScanline s).toInt = s.scanline ∧ (dbgCycle s).toNat = s.cycle) ∧
  dbgScanline State.reset = 0x3FF ∧
  (∀ (s : State) (sel : BitVec 1) (addr : BitVec 16),
    diagData s sel addr = s.diag.read (sel.toNat * 65536 + addr.toNat))

/-- `POKE a, v` with `LATCH = 0` and no cartridge leaves `VADDR = (a + 1) mod 2^15` and the byte at `a` equal to `v`, outside
the name-table range (R95, R56; decision D30). -/
def Obligations.PokeStoresTheByte : Prop :=
  ∀ (s : State) (a v : Nat) (rest : List Edge), (TraceOp.poke a v).wf = true → s.NoCart → s.latch = false →
    s.pat.wf → s.pal.wf → s.edges = traceEdges s (.poke a v) ++ rest →
    ∃ t, Host.Core.run core 3 s = .next t ∧ t.edges = rest ∧ t.latch = false ∧ t.vaddr.toNat = (a + 1) % 2 ^ 15 ∧
      bankRead t (BitVec.ofNat 14 a) =
        if 0x2000 ≤ a % 0x4000 ∧ a % 0x4000 ≤ 0x3EFF then 0x00 else BitVec.ofNat 8 v

/-- `PEEK a` with `LATCH = 0` and no cartridge ends with the byte at `a` as its response, after one discarded read below
0x3F00 and after none from there on; it changes no bank (R95, R119; decision D30). -/
def Obligations.PeekReturnsTheByte : Prop :=
  ∀ (s : State) (a : Nat) (rest : List Edge), (TraceOp.peek a).wf = true → s.NoCart → s.latch = false →
    s.edges = traceEdges s (.peek a) ++ rest →
    ∃ t, Host.Core.run core (traceEdges s (.peek a)).length s = .next t ∧ t.edges = rest ∧
      t.resp = (bankRead s (BitVec.ofNat 14 a)).setWidth 32 ∧ t.pat = s.pat ∧ t.pal = s.pal ∧
      t.vaddr.toNat = (a + (if a % 2 ^ 15 < 0x3EFF then 2 else 1)) % 2 ^ 15
end

