-- ==== Sys2Proof/Laws/Bits.lean ====
section
/-! SUPPORT. The operand and address assemblies as numbers (spec 30_encoding.md R80, R86, R88, R89; 42_decoder.md R141). -/

namespace Sys2Proof.Machine

/-- Concatenation as a number: the high part times two to the width of the low part, plus the low part. -/
theorem toNat_append_add {n m : Nat} (x : BitVec n) (y : BitVec m) : (x ++ y).toNat = x.toNat * 2 ^ m + y.toNat := by
  rw [BitVec.toNat_append, ← Nat.shiftLeft_add_eq_or_of_lt y.isLt, Nat.shiftLeft_eq]

theorem withHighHalf_toNat (v : VramAddr) (d : Byte) :
    (withHighHalf v d).toNat = d.toNat % 128 * 256 + v.toNat % 256 := by
  rw [withHighHalf, toNat_append_add]
  simp [BitVec.extractLsb'_toNat]

theorem withLowHalf_toNat (v : VramAddr) (d : Byte) : (withLowHalf v d).toNat = v.toNat / 256 * 256 + d.toNat := by
  have := v.isLt
  rw [withLowHalf, toNat_append_add]
  simp only [BitVec.extractLsb'_toNat, Nat.shiftRight_eq_div_pow]
  omega

theorem nextVaddr_toNat (v : VramAddr) : (nextVaddr v).toNat = (v.toNat + 1) % 2 ^ 15 := by
  simp [nextVaddr, BitVec.toNat_add]

theorem colorAddr_toNat (ci : BitVec 2) (ps : BitVec 3) : (colorAddr ci ps).toNat = 0x3F00 + ps.toNat * 4 + ci.toNat := by
  rw [colorAddr, toNat_append_add, toNat_append_add]
  simp only [BitVec.toNat_ofNat]
  omega

theorem lowPlaneAddr_toNat (ti : BitVec 1) (j : TileRow) :
    (lowPlaneAddr ti j).toNat = ti.toNat * 0x1000 + j.ty.toNat * 256 + j.tx.toNat * 16 + j.row.toNat := by
  simp only [lowPlaneAddr, toNat_append_add, BitVec.toNat_ofNat]
  omega

theorem highPlaneAddr_toNat (ti : BitVec 1) (j : TileRow) :
    (highPlaneAddr ti j).toNat = ti.toNat * 0x1000 + j.ty.toNat * 256 + j.tx.toNat * 16 + j.row.toNat + 8 := by
  simp only [highPlaneAddr, toNat_append_add, BitVec.toNat_ofNat]
  omega

/-- A bit of a vector as a number. -/
theorem toNat_ofBool_getLsbD {n : Nat} (x : BitVec n) (i : Nat) :
    (BitVec.ofBool (x.getLsbD i)).toNat = x.toNat / 2 ^ i % 2 := by
  rw [BitVec.toNat_ofBool, BitVec.getLsbD, Nat.testBit_eq_decide_div_mod_eq]
  rcases Nat.mod_two_eq_zero_or_one (x.toNat / 2 ^ i) with h | h <;> simp [h]

theorem unpackLane_toNat (lo hi : Byte) (col : Nat) :
    (unpackLane lo hi col).toNat = 2 * (hi.toNat / 2 ^ (7 - col) % 2) + lo.toNat / 2 ^ (7 - col) % 2 := by
  rw [unpackLane, toNat_append_add, toNat_ofBool_getLsbD, toNat_ofBool_getLsbD]
  omega

theorem maskAddr_dataPortAddr (v : VramAddr) : maskAddr (dataPortAddr v) = v.setWidth 14 := by
  apply BitVec.eq_of_toNat_eq
  simp [maskAddr, dataPortAddr, BitVec.extractLsb'_toNat]

end Sys2Proof.Machine
end

