-- ==== Sys2Proof/Laws/Memory.lean ====
section
/-! SUPPORT. The laws of a memory bank: read after write, and the canonical form that every write keeps. -/

namespace Sys2Proof.Machine

@[simp] theorem Memory.read_nil (k : Nat) : Memory.read [] k = 0x00 := rfl

theorem Memory.read_cons (c : Host.Cell) (m : Memory) (k : Nat) :
    Memory.read (c :: m) k = if k = c.1 then c.2 else m.read k := rfl

theorem Memory.read_consCell_self {k : Nat} {v : Byte} {m : Memory} (h : m.read k = unlistedByte) :
    (Memory.consCell k v m).read k = v := by
  unfold Memory.consCell
  split
  · rename_i hv; rw [h, hv]
  · simp [Memory.read]

theorem Memory.read_consCell_other {k k' : Nat} (v : Byte) (m : Memory) (h : k' ≠ k) :
    (Memory.consCell k v m).read k' = m.read k' := by
  unfold Memory.consCell
  split
  · rfl
  · simp [Memory.read, h]

/-- A key below every key of a bank is unlisted. -/
theorem Memory.read_of_lt {m : Memory} {k : Nat} (h : ∀ c ∈ m, k < c.1) : m.read k = unlistedByte := by
  induction m with
  | nil => rfl
  | cons c m ih =>
    have hc : k ≠ c.1 := Nat.ne_of_lt (h c List.mem_cons_self)
    simp only [Memory.read, hc, if_false]
    exact ih fun d hd => h d (List.mem_cons_of_mem _ hd)

/-- A write leaves every other key alone (R57). -/
@[simp] theorem Memory.read_write_other {k k' : Nat} (m : Memory) (v : Byte) (h : k' ≠ k) :
    (m.write k v).read k' = m.read k' := by
  induction m with
  | nil => exact Memory.read_consCell_other v [] h
  | cons c m ih =>
    simp only [Memory.write]
    split_ifs with h1 h2
    · exact Memory.read_consCell_other v _ h
    · rw [Memory.read_consCell_other v _ h, Memory.read_cons, if_neg (h2 ▸ h)]
    · rw [Memory.read_cons, Memory.read_cons, ih]

/-- A read after a write to the same key gives the byte written (R56). -/
theorem Memory.read_write_self {m : Memory} (hm : m.wf) (k : Nat) (v : Byte) : (m.write k v).read k = v := by
  induction m with
  | nil => exact Memory.read_consCell_self rfl
  | cons c m ih =>
    obtain ⟨hp, hz⟩ := hm
    rw [List.pairwise_cons] at hp
    simp only [Memory.write]
    split_ifs with h1 h2
    · refine Memory.read_consCell_self (Memory.read_of_lt ?_)
      intro d hd
      rcases List.mem_cons.1 hd with rfl | hd
      · exact h1
      · exact Nat.lt_trans h1 (hp.1 d hd)
    · exact Memory.read_consCell_self (Memory.read_of_lt fun d hd => h2 ▸ hp.1 d hd)
    · rw [Memory.read_cons, if_neg h2]
      exact ih ⟨hp.2, fun d hd => hz d (List.mem_cons_of_mem _ hd)⟩

/-- Every cell after a write is the new one or an old one. -/
theorem Memory.mem_write {m : Memory} {k : Nat} {v : Byte} {c : Host.Cell} (h : c ∈ m.write k v) :
    c ∈ m ∨ (c = (k, v) ∧ v ≠ unlistedByte) := by
  have key : ∀ {m' : Memory}, c ∈ Memory.consCell k v m' → c ∈ m' ∨ (c = (k, v) ∧ v ≠ unlistedByte) := by
    intro m' hc
    unfold Memory.consCell at hc
    split at hc
    · exact .inl hc
    · rename_i hv
      rcases List.mem_cons.1 hc with rfl | hc
      · exact .inr ⟨rfl, hv⟩
      · exact .inl hc
  induction m with
  | nil => exact key h
  | cons d m ih =>
    simp only [Memory.write] at h
    split_ifs at h with h1 h2
    · exact key h
    · exact (key h).imp_left (List.mem_cons_of_mem _)
    · rcases List.mem_cons.1 h with rfl | h
      · exact .inl List.mem_cons_self
      · exact (ih h).imp_left (List.mem_cons_of_mem _)

theorem Memory.pairwise_consCell {m : Memory} {k : Nat} (v : Byte) (hp : m.Pairwise fun a b => a.1 < b.1)
    (hk : ∀ c ∈ m, k < c.1) : (Memory.consCell k v m).Pairwise fun a b => a.1 < b.1 := by
  unfold Memory.consCell
  split
  · exact hp
  · exact List.pairwise_cons.2 ⟨hk, hp⟩

/-- A write keeps the canonical form. -/
theorem Memory.write_wf {m : Memory} (hm : m.wf) (k : Nat) (v : Byte) : (m.write k v).wf := by
  refine ⟨?_, fun c hc => ?_⟩
  · have hp := hm.1
    clear hm
    induction m with
    | nil => exact Memory.pairwise_consCell v List.Pairwise.nil (by simp)
    | cons d m ih =>
      have hd := List.pairwise_cons.1 hp
      simp only [Memory.write]
      split_ifs with h1 h2
      · refine Memory.pairwise_consCell v hp fun c hc => ?_
        rcases List.mem_cons.1 hc with rfl | hc
        · exact h1
        · exact Nat.lt_trans h1 (hd.1 c hc)
      · exact Memory.pairwise_consCell v hd.2 fun c hc => h2 ▸ hd.1 c hc
      · refine List.pairwise_cons.2 ⟨fun c hc => ?_, ih hd.2⟩
        rcases Memory.mem_write hc with hc | ⟨rfl, -⟩
        · exact hd.1 c hc
        · show d.1 < k
          omega
  · rcases Memory.mem_write hc with hc | ⟨rfl, hv⟩
    · exact hm.2 c hc
    · exact hv

/-- A write below a bank's size keeps every key below it. -/
theorem Memory.write_below {m : Memory} {n k : Nat} (hm : m.below n) (hk : k < n) (v : Byte) : (m.write k v).below n := by
  intro c hc
  rcases Memory.mem_write hc with hc | ⟨rfl, -⟩
  · exact hm c hc
  · exact hk

@[simp] theorem Memory.wf_nil : Memory.wf [] := ⟨List.Pairwise.nil, by simp⟩

@[simp] theorem Memory.below_nil (n : Nat) : Memory.below n [] := by simp [Memory.below]

end Sys2Proof.Machine
end

