-- ==== Sys2Proof/Laws/State.lean ====
section
/-! SUPPORT. One lemma per field of State per named update, each true by rfl, so that no later proof unfolds an update. -/

namespace Sys2Proof.Machine

/-! ### One hook call: `hookCall` -/

@[simp] theorem hookCall_ctrl (we : Bool) (addr : InternalAddr) (v : Byte) (s : State) : (hookCall we addr v s).ctrl = s.ctrl := rfl
@[simp] theorem hookCall_mask (we : Bool) (addr : InternalAddr) (v : Byte) (s : State) : (hookCall we addr v s).mask = s.mask := rfl
@[simp] theorem hookCall_vblank (we : Bool) (addr : InternalAddr) (v : Byte) (s : State) : (hookCall we addr v s).vblank = s.vblank := rfl
@[simp] theorem hookCall_sprite0 (we : Bool) (addr : InternalAddr) (v : Byte) (s : State) : (hookCall we addr v s).sprite0 = s.sprite0 := rfl
@[simp] theorem hookCall_sprovf (we : Bool) (addr : InternalAddr) (v : Byte) (s : State) : (hookCall we addr v s).sprovf = s.sprovf := rfl
@[simp] theorem hookCall_latch (we : Bool) (addr : InternalAddr) (v : Byte) (s : State) : (hookCall we addr v s).latch = s.latch := rfl
@[simp] theorem hookCall_vaddr (we : Bool) (addr : InternalAddr) (v : Byte) (s : State) : (hookCall we addr v s).vaddr = s.vaddr := rfl
@[simp] theorem hookCall_rbuf (we : Bool) (addr : InternalAddr) (v : Byte) (s : State) : (hookCall we addr v s).rbuf = s.rbuf := rfl
@[simp] theorem hookCall_irq (we : Bool) (addr : InternalAddr) (v : Byte) (s : State) : (hookCall we addr v s).irq = s.irq := rfl
@[simp] theorem hookCall_scanline (we : Bool) (addr : InternalAddr) (v : Byte) (s : State) : (hookCall we addr v s).scanline = s.scanline := rfl
@[simp] theorem hookCall_cycle (we : Bool) (addr : InternalAddr) (v : Byte) (s : State) : (hookCall we addr v s).cycle = s.cycle := rfl
@[simp] theorem hookCall_ticks (we : Bool) (addr : InternalAddr) (v : Byte) (s : State) : (hookCall we addr v s).ticks = s.ticks := rfl
@[simp] theorem hookCall_pat (we : Bool) (addr : InternalAddr) (v : Byte) (s : State) : (hookCall we addr v s).pat = s.pat := rfl
@[simp] theorem hookCall_nt (we : Bool) (addr : InternalAddr) (v : Byte) (s : State) : (hookCall we addr v s).nt = s.nt := rfl
@[simp] theorem hookCall_pal (we : Bool) (addr : InternalAddr) (v : Byte) (s : State) : (hookCall we addr v s).pal = s.pal := rfl
@[simp] theorem hookCall_diag (we : Bool) (addr : InternalAddr) (v : Byte) (s : State) : (hookCall we addr v s).diag = s.diag := rfl
@[simp] theorem hookCall_edges (we : Bool) (addr : InternalAddr) (v : Byte) (s : State) : (hookCall we addr v s).edges = s.edges := rfl
@[simp] theorem hookCall_cart (we : Bool) (addr : InternalAddr) (v : Byte) (s : State) : (hookCall we addr v s).cart = s.cart.tail := rfl
@[simp] theorem hookCall_resp (we : Bool) (addr : InternalAddr) (v : Byte) (s : State) : (hookCall we addr v s).resp = s.resp := rfl
@[simp] theorem hookCall_hooks (we : Bool) (addr : InternalAddr) (v : Byte) (s : State) : (hookCall we addr v s).hooks = ⟨we, addr, v, nextAnswer s⟩ :: s.hooks := rfl

/-! ### Driving `resp`: `respond` -/

@[simp] theorem respond_ctrl (v : Resp) (s : State) : (respond v s).ctrl = s.ctrl := rfl
@[simp] theorem respond_mask (v : Resp) (s : State) : (respond v s).mask = s.mask := rfl
@[simp] theorem respond_vblank (v : Resp) (s : State) : (respond v s).vblank = s.vblank := rfl
@[simp] theorem respond_sprite0 (v : Resp) (s : State) : (respond v s).sprite0 = s.sprite0 := rfl
@[simp] theorem respond_sprovf (v : Resp) (s : State) : (respond v s).sprovf = s.sprovf := rfl
@[simp] theorem respond_latch (v : Resp) (s : State) : (respond v s).latch = s.latch := rfl
@[simp] theorem respond_vaddr (v : Resp) (s : State) : (respond v s).vaddr = s.vaddr := rfl
@[simp] theorem respond_rbuf (v : Resp) (s : State) : (respond v s).rbuf = s.rbuf := rfl
@[simp] theorem respond_irq (v : Resp) (s : State) : (respond v s).irq = s.irq := rfl
@[simp] theorem respond_scanline (v : Resp) (s : State) : (respond v s).scanline = s.scanline := rfl
@[simp] theorem respond_cycle (v : Resp) (s : State) : (respond v s).cycle = s.cycle := rfl
@[simp] theorem respond_ticks (v : Resp) (s : State) : (respond v s).ticks = s.ticks := rfl
@[simp] theorem respond_pat (v : Resp) (s : State) : (respond v s).pat = s.pat := rfl
@[simp] theorem respond_nt (v : Resp) (s : State) : (respond v s).nt = s.nt := rfl
@[simp] theorem respond_pal (v : Resp) (s : State) : (respond v s).pal = s.pal := rfl
@[simp] theorem respond_diag (v : Resp) (s : State) : (respond v s).diag = s.diag := rfl
@[simp] theorem respond_edges (v : Resp) (s : State) : (respond v s).edges = s.edges := rfl
@[simp] theorem respond_cart (v : Resp) (s : State) : (respond v s).cart = s.cart := rfl
@[simp] theorem respond_resp (v : Resp) (s : State) : (respond v s).resp = v := rfl
@[simp] theorem respond_hooks (v : Resp) (s : State) : (respond v s).hooks = s.hooks := rfl

/-! ### The response of a port read: `respondByte` -/

@[simp] theorem respondByte_ctrl (v : Byte) (s : State) : (respondByte v s).ctrl = s.ctrl := rfl
@[simp] theorem respondByte_mask (v : Byte) (s : State) : (respondByte v s).mask = s.mask := rfl
@[simp] theorem respondByte_vblank (v : Byte) (s : State) : (respondByte v s).vblank = s.vblank := rfl
@[simp] theorem respondByte_sprite0 (v : Byte) (s : State) : (respondByte v s).sprite0 = s.sprite0 := rfl
@[simp] theorem respondByte_sprovf (v : Byte) (s : State) : (respondByte v s).sprovf = s.sprovf := rfl
@[simp] theorem respondByte_latch (v : Byte) (s : State) : (respondByte v s).latch = s.latch := rfl
@[simp] theorem respondByte_vaddr (v : Byte) (s : State) : (respondByte v s).vaddr = s.vaddr := rfl
@[simp] theorem respondByte_rbuf (v : Byte) (s : State) : (respondByte v s).rbuf = s.rbuf := rfl
@[simp] theorem respondByte_irq (v : Byte) (s : State) : (respondByte v s).irq = s.irq := rfl
@[simp] theorem respondByte_scanline (v : Byte) (s : State) : (respondByte v s).scanline = s.scanline := rfl
@[simp] theorem respondByte_cycle (v : Byte) (s : State) : (respondByte v s).cycle = s.cycle := rfl
@[simp] theorem respondByte_ticks (v : Byte) (s : State) : (respondByte v s).ticks = s.ticks := rfl
@[simp] theorem respondByte_pat (v : Byte) (s : State) : (respondByte v s).pat = s.pat := rfl
@[simp] theorem respondByte_nt (v : Byte) (s : State) : (respondByte v s).nt = s.nt := rfl
@[simp] theorem respondByte_pal (v : Byte) (s : State) : (respondByte v s).pal = s.pal := rfl
@[simp] theorem respondByte_diag (v : Byte) (s : State) : (respondByte v s).diag = s.diag := rfl
@[simp] theorem respondByte_edges (v : Byte) (s : State) : (respondByte v s).edges = s.edges := rfl
@[simp] theorem respondByte_cart (v : Byte) (s : State) : (respondByte v s).cart = s.cart := rfl
@[simp] theorem respondByte_resp (v : Byte) (s : State) : (respondByte v s).resp = v.setWidth 32 := rfl
@[simp] theorem respondByte_hooks (v : Byte) (s : State) : (respondByte v s).hooks = s.hooks := rfl

/-! ### The response 0: `respondZero` -/

@[simp] theorem respondZero_ctrl (s : State) : (respondZero s).ctrl = s.ctrl := rfl
@[simp] theorem respondZero_mask (s : State) : (respondZero s).mask = s.mask := rfl
@[simp] theorem respondZero_vblank (s : State) : (respondZero s).vblank = s.vblank := rfl
@[simp] theorem respondZero_sprite0 (s : State) : (respondZero s).sprite0 = s.sprite0 := rfl
@[simp] theorem respondZero_sprovf (s : State) : (respondZero s).sprovf = s.sprovf := rfl
@[simp] theorem respondZero_latch (s : State) : (respondZero s).latch = s.latch := rfl
@[simp] theorem respondZero_vaddr (s : State) : (respondZero s).vaddr = s.vaddr := rfl
@[simp] theorem respondZero_rbuf (s : State) : (respondZero s).rbuf = s.rbuf := rfl
@[simp] theorem respondZero_irq (s : State) : (respondZero s).irq = s.irq := rfl
@[simp] theorem respondZero_scanline (s : State) : (respondZero s).scanline = s.scanline := rfl
@[simp] theorem respondZero_cycle (s : State) : (respondZero s).cycle = s.cycle := rfl
@[simp] theorem respondZero_ticks (s : State) : (respondZero s).ticks = s.ticks := rfl
@[simp] theorem respondZero_pat (s : State) : (respondZero s).pat = s.pat := rfl
@[simp] theorem respondZero_nt (s : State) : (respondZero s).nt = s.nt := rfl
@[simp] theorem respondZero_pal (s : State) : (respondZero s).pal = s.pal := rfl
@[simp] theorem respondZero_diag (s : State) : (respondZero s).diag = s.diag := rfl
@[simp] theorem respondZero_edges (s : State) : (respondZero s).edges = s.edges := rfl
@[simp] theorem respondZero_cart (s : State) : (respondZero s).cart = s.cart := rfl
@[simp] theorem respondZero_resp (s : State) : (respondZero s).resp = 0 := rfl
@[simp] theorem respondZero_hooks (s : State) : (respondZero s).hooks = s.hooks := rfl

/-! ### Raising the request: `raiseIrq` -/

@[simp] theorem raiseIrq_ctrl (s : State) : (raiseIrq s).ctrl = s.ctrl := rfl
@[simp] theorem raiseIrq_mask (s : State) : (raiseIrq s).mask = s.mask := rfl
@[simp] theorem raiseIrq_vblank (s : State) : (raiseIrq s).vblank = s.vblank := rfl
@[simp] theorem raiseIrq_sprite0 (s : State) : (raiseIrq s).sprite0 = s.sprite0 := rfl
@[simp] theorem raiseIrq_sprovf (s : State) : (raiseIrq s).sprovf = s.sprovf := rfl
@[simp] theorem raiseIrq_latch (s : State) : (raiseIrq s).latch = s.latch := rfl
@[simp] theorem raiseIrq_vaddr (s : State) : (raiseIrq s).vaddr = s.vaddr := rfl
@[simp] theorem raiseIrq_rbuf (s : State) : (raiseIrq s).rbuf = s.rbuf := rfl
@[simp] theorem raiseIrq_irq (s : State) : (raiseIrq s).irq = true := rfl
@[simp] theorem raiseIrq_scanline (s : State) : (raiseIrq s).scanline = s.scanline := rfl
@[simp] theorem raiseIrq_cycle (s : State) : (raiseIrq s).cycle = s.cycle := rfl
@[simp] theorem raiseIrq_ticks (s : State) : (raiseIrq s).ticks = s.ticks := rfl
@[simp] theorem raiseIrq_pat (s : State) : (raiseIrq s).pat = s.pat := rfl
@[simp] theorem raiseIrq_nt (s : State) : (raiseIrq s).nt = s.nt := rfl
@[simp] theorem raiseIrq_pal (s : State) : (raiseIrq s).pal = s.pal := rfl
@[simp] theorem raiseIrq_diag (s : State) : (raiseIrq s).diag = s.diag := rfl
@[simp] theorem raiseIrq_edges (s : State) : (raiseIrq s).edges = s.edges := rfl
@[simp] theorem raiseIrq_cart (s : State) : (raiseIrq s).cart = s.cart := rfl
@[simp] theorem raiseIrq_resp (s : State) : (raiseIrq s).resp = s.resp := rfl
@[simp] theorem raiseIrq_hooks (s : State) : (raiseIrq s).hooks = s.hooks := rfl

/-! ### Consuming the request: `acknowledgeIrq` -/

@[simp] theorem acknowledgeIrq_ctrl (s : State) : (acknowledgeIrq s).ctrl = s.ctrl := rfl
@[simp] theorem acknowledgeIrq_mask (s : State) : (acknowledgeIrq s).mask = s.mask := rfl
@[simp] theorem acknowledgeIrq_vblank (s : State) : (acknowledgeIrq s).vblank = s.vblank := rfl
@[simp] theorem acknowledgeIrq_sprite0 (s : State) : (acknowledgeIrq s).sprite0 = s.sprite0 := rfl
@[simp] theorem acknowledgeIrq_sprovf (s : State) : (acknowledgeIrq s).sprovf = s.sprovf := rfl
@[simp] theorem acknowledgeIrq_latch (s : State) : (acknowledgeIrq s).latch = s.latch := rfl
@[simp] theorem acknowledgeIrq_vaddr (s : State) : (acknowledgeIrq s).vaddr = s.vaddr := rfl
@[simp] theorem acknowledgeIrq_rbuf (s : State) : (acknowledgeIrq s).rbuf = s.rbuf := rfl
@[simp] theorem acknowledgeIrq_irq (s : State) : (acknowledgeIrq s).irq = false := rfl
@[simp] theorem acknowledgeIrq_scanline (s : State) : (acknowledgeIrq s).scanline = s.scanline := rfl
@[simp] theorem acknowledgeIrq_cycle (s : State) : (acknowledgeIrq s).cycle = s.cycle := rfl
@[simp] theorem acknowledgeIrq_ticks (s : State) : (acknowledgeIrq s).ticks = s.ticks := rfl
@[simp] theorem acknowledgeIrq_pat (s : State) : (acknowledgeIrq s).pat = s.pat := rfl
@[simp] theorem acknowledgeIrq_nt (s : State) : (acknowledgeIrq s).nt = s.nt := rfl
@[simp] theorem acknowledgeIrq_pal (s : State) : (acknowledgeIrq s).pal = s.pal := rfl
@[simp] theorem acknowledgeIrq_diag (s : State) : (acknowledgeIrq s).diag = s.diag := rfl
@[simp] theorem acknowledgeIrq_edges (s : State) : (acknowledgeIrq s).edges = s.edges := rfl
@[simp] theorem acknowledgeIrq_cart (s : State) : (acknowledgeIrq s).cart = s.cart := rfl
@[simp] theorem acknowledgeIrq_resp (s : State) : (acknowledgeIrq s).resp = s.resp := rfl
@[simp] theorem acknowledgeIrq_hooks (s : State) : (acknowledgeIrq s).hooks = s.hooks := rfl

/-! ### Beginning a step: `beginStep` -/

@[simp] theorem beginStep_ctrl (s : State) : (beginStep s).ctrl = s.ctrl := rfl
@[simp] theorem beginStep_mask (s : State) : (beginStep s).mask = s.mask := rfl
@[simp] theorem beginStep_vblank (s : State) : (beginStep s).vblank = s.vblank := rfl
@[simp] theorem beginStep_sprite0 (s : State) : (beginStep s).sprite0 = s.sprite0 := rfl
@[simp] theorem beginStep_sprovf (s : State) : (beginStep s).sprovf = s.sprovf := rfl
@[simp] theorem beginStep_latch (s : State) : (beginStep s).latch = s.latch := rfl
@[simp] theorem beginStep_vaddr (s : State) : (beginStep s).vaddr = s.vaddr := rfl
@[simp] theorem beginStep_rbuf (s : State) : (beginStep s).rbuf = s.rbuf := rfl
@[simp] theorem beginStep_irq (s : State) : (beginStep s).irq = s.irq := rfl
@[simp] theorem beginStep_scanline (s : State) : (beginStep s).scanline = s.scanline := rfl
@[simp] theorem beginStep_cycle (s : State) : (beginStep s).cycle = s.cycle := rfl
@[simp] theorem beginStep_ticks (s : State) : (beginStep s).ticks = s.ticks := rfl
@[simp] theorem beginStep_pat (s : State) : (beginStep s).pat = s.pat := rfl
@[simp] theorem beginStep_nt (s : State) : (beginStep s).nt = s.nt := rfl
@[simp] theorem beginStep_pal (s : State) : (beginStep s).pal = s.pal := rfl
@[simp] theorem beginStep_diag (s : State) : (beginStep s).diag = s.diag := rfl
@[simp] theorem beginStep_edges (s : State) : (beginStep s).edges = s.edges.tail := rfl
@[simp] theorem beginStep_cart (s : State) : (beginStep s).cart = s.cart := rfl
@[simp] theorem beginStep_resp (s : State) : (beginStep s).resp = 0 := rfl
@[simp] theorem beginStep_hooks (s : State) : (beginStep s).hooks = [] := rfl

/-! ### Presenting a word: `withFetchWord` -/

@[simp] theorem withFetchWord_ctrl (s : State) (n w : Nat) : (s.withFetchWord n w).ctrl = s.ctrl := rfl
@[simp] theorem withFetchWord_mask (s : State) (n w : Nat) : (s.withFetchWord n w).mask = s.mask := rfl
@[simp] theorem withFetchWord_vblank (s : State) (n w : Nat) : (s.withFetchWord n w).vblank = s.vblank := rfl
@[simp] theorem withFetchWord_sprite0 (s : State) (n w : Nat) : (s.withFetchWord n w).sprite0 = s.sprite0 := rfl
@[simp] theorem withFetchWord_sprovf (s : State) (n w : Nat) : (s.withFetchWord n w).sprovf = s.sprovf := rfl
@[simp] theorem withFetchWord_latch (s : State) (n w : Nat) : (s.withFetchWord n w).latch = s.latch := rfl
@[simp] theorem withFetchWord_vaddr (s : State) (n w : Nat) : (s.withFetchWord n w).vaddr = s.vaddr := rfl
@[simp] theorem withFetchWord_rbuf (s : State) (n w : Nat) : (s.withFetchWord n w).rbuf = s.rbuf := rfl
@[simp] theorem withFetchWord_irq (s : State) (n w : Nat) : (s.withFetchWord n w).irq = s.irq := rfl
@[simp] theorem withFetchWord_scanline (s : State) (n w : Nat) : (s.withFetchWord n w).scanline = s.scanline := rfl
@[simp] theorem withFetchWord_cycle (s : State) (n w : Nat) : (s.withFetchWord n w).cycle = s.cycle := rfl
@[simp] theorem withFetchWord_ticks (s : State) (n w : Nat) : (s.withFetchWord n w).ticks = s.ticks := rfl
@[simp] theorem withFetchWord_pat (s : State) (n w : Nat) : (s.withFetchWord n w).pat = s.pat := rfl
@[simp] theorem withFetchWord_nt (s : State) (n w : Nat) : (s.withFetchWord n w).nt = s.nt := rfl
@[simp] theorem withFetchWord_pal (s : State) (n w : Nat) : (s.withFetchWord n w).pal = s.pal := rfl
@[simp] theorem withFetchWord_diag (s : State) (n w : Nat) : (s.withFetchWord n w).diag = s.diag := rfl
@[simp] theorem withFetchWord_edges (s : State) (n w : Nat) : (s.withFetchWord n w).edges = ⟨false, true, firstWord n w⟩ :: s.edges := rfl
@[simp] theorem withFetchWord_cart (s : State) (n w : Nat) : (s.withFetchWord n w).cart = s.cart := rfl
@[simp] theorem withFetchWord_resp (s : State) (n w : Nat) : (s.withFetchWord n w).resp = s.resp := rfl
@[simp] theorem withFetchWord_hooks (s : State) (n w : Nat) : (s.withFetchWord n w).hooks = s.hooks := rfl

end Sys2Proof.Machine
end

