-- ==== Sys2Proof/Laws/Router.lean ====
section
/-! SUPPORT. What the router can do (spec 20_memory.md R46, R47): the three targets of the map, a read's value and frame,
a write's effect and frame. -/

namespace Sys2Proof.Machine

/-! ### The map (R54) -/

theorem route_pattern {a : InternalAddr} (h : a.toNat ≤ 0x1FFF) :
    route a = .pattern (a.extractLsb' 12 1) (a.extractLsb' 0 12) := by simp [route, h]

theorem route_nameTable {a : InternalAddr} (h1 : 0x2000 ≤ a.toNat) (h2 : a.toNat ≤ 0x3EFF) : route a = .nameTable := by
  have : ¬ a.toNat ≤ 0x1FFF := by omega
  simp [route, this, h2]

theorem route_palette {a : InternalAddr} (h : 0x3F00 ≤ a.toNat) : route a = .palette (palidx (a.extractLsb' 0 5)) := by
  have h1 : ¬ a.toNat ≤ 0x1FFF := by omega
  have h2 : ¬ a.toNat ≤ 0x3EFF := by omega
  simp [route, h1, h2]

/-- No index the alias gives is one of the four aliased cells (R24, R53). -/
theorem palidx_not_alias (i : BitVec 5) : (palidx i).toNat ∉ aliasCells := by
  revert i; decide

theorem palidx_idem (i : BitVec 5) : palidx (palidx i) = palidx i := by
  revert i; decide

theorem patKey_lt (b : BitVec 1) (o : BitVec 12) : patKey b o < 8192 := by
  have := b.isLt; have := o.isLt; simp only [patKey]; omega

theorem patKey_inj {b b' : BitVec 1} {o o' : BitVec 12} (h : patKey b o = patKey b' o') : b = b' ∧ o = o' := by
  have := b.isLt; have := b'.isLt; have := o.isLt; have := o'.isLt
  simp only [patKey] at h
  exact ⟨BitVec.eq_of_toNat_eq (by omega), BitVec.eq_of_toNat_eq (by omega)⟩

theorem toNat_maskAddr (a : RouterAddr) : (maskAddr a).toNat = a.toNat % 0x4000 := by
  simp [maskAddr, BitVec.extractLsb'_toNat]

/-- The key of the pattern byte at an internal address is the address itself (R50). -/
theorem patKey_of_addr {a : InternalAddr} (h : a.toNat ≤ 0x1FFF) :
    patKey (a.extractLsb' 12 1) (a.extractLsb' 0 12) = a.toNat := by
  simp only [patKey, BitVec.extractLsb'_toNat, Nat.shiftRight_eq_div_pow]
  omega

/-! ### Reads -/

theorem nextAnswer_of_noCart {s : State} (h : s.NoCart) : nextAnswer s = unclaimed := by
  simp [nextAnswer, show s.cart = [] from h]

theorem hookCall_noCart {s : State} (h : s.NoCart) (we : Bool) (a : InternalAddr) (v : Byte) :
    (hookCall we a v s).NoCart := by
  simp [State.NoCart, show s.cart = [] from h]

@[simp] theorem memRead_fst (a : RouterAddr) (s : State) : (memRead a s).1 = memReadValue a s := rfl

@[simp] theorem memRead_snd (a : RouterAddr) (s : State) : (memRead a s).2 = hookCall false (maskAddr a) wdataOnRead s := rfl

/-- A bank read looks at nothing but `PAT` and `PAL`. -/
theorem bankRead_congr {s t : State} (hp : t.pat = s.pat) (hq : t.pal = s.pal) (a : InternalAddr) :
    bankRead t a = bankRead s a := by simp only [bankRead, hp, hq]

@[simp] theorem bankRead_hookCall (we : Bool) (b : InternalAddr) (v : Byte) (s : State) (a : InternalAddr) :
    bankRead (hookCall we b v s) a = bankRead s a := rfl

theorem memReadValue_noCart {s : State} (h : s.NoCart) (a : RouterAddr) : memReadValue a s = bankRead s (maskAddr a) := by
  simp [memReadValue, nextAnswer_of_noCart h, unclaimed]

/-- A read's value is the cartridge's byte if there is one, else the bank's (R46). -/
theorem memReadValue_eq (a : RouterAddr) (s : State) :
    memReadValue a s = (nextAnswer s).byte.getD (bankRead s (maskAddr a)) := by
  unfold memReadValue CartAnswer.byte
  split <;> rfl

/-! ### Writes -/

/-- A bank write changes one key of `PAT`, one key of `PAL`, or nothing (R47). -/
theorem bankWrite_cases (a : InternalAddr) (v : Byte) (s : State) :
    (∃ b o, route a = .pattern b o ∧ bankWrite a v s = { s with pat := s.pat.write (patKey b o) v }) ∨
    (route a = .nameTable ∧ bankWrite a v s = s) ∨
    (∃ i, route a = .palette i ∧ bankWrite a v s = { s with pal := s.pal.write i.toNat v }) := by
  unfold bankWrite
  cases h : route a with
  | pattern b o => exact .inl ⟨b, o, rfl, rfl⟩
  | nameTable => exact .inr (.inl ⟨rfl, rfl⟩)
  | palette i => exact .inr (.inr ⟨i, rfl, rfl⟩)

/-- A bank write touches nothing but `PAT` and `PAL`. -/
theorem bankWrite_frame (a : InternalAddr) (v : Byte) (s : State) :
    bankWrite a v s = { s with pat := (bankWrite a v s).pat, pal := (bankWrite a v s).pal } := by
  rcases bankWrite_cases a v s with ⟨b, o, -, h⟩ | ⟨-, h⟩ | ⟨i, -, h⟩ <;> rw [h]

/-- `PAT` after a router write. -/
def patAfter (claimed : Bool) (a : InternalAddr) (v : Byte) (pat : Memory) : Memory :=
  if claimed then pat else match route a with
    | .pattern b o => pat.write (patKey b o) v
    | _ => pat

/-- `PAL` after a router write. -/
def palAfter (claimed : Bool) (a : InternalAddr) (v : Byte) (pal : Memory) : Memory :=
  if claimed then pal else match route a with
    | .palette i => pal.write i.toNat v
    | _ => pal

/-- The router's write in explicit form: it touches nothing but `PAT`, `PAL` and the hook's signals (R47). -/
theorem memWrite_eq (a : RouterAddr) (v : Byte) (s : State) :
    memWrite a v s = { s with
      pat := patAfter (nextAnswer s).claim (maskAddr a) v s.pat
      pal := palAfter (nextAnswer s).claim (maskAddr a) v s.pal
      cart := s.cart.tail
      hooks := ⟨true, maskAddr a, v, nextAnswer s⟩ :: s.hooks } := by
  unfold memWrite patAfter palAfter
  cases (nextAnswer s).claim with
  | true => rfl
  | false =>
    rcases bankWrite_cases (maskAddr a) v (hookCall true (maskAddr a) v s) with ⟨b, o, h, e⟩ | ⟨h, e⟩ | ⟨i, h, e⟩ <;>
      simp only [h, e, Bool.false_eq_true, if_false] <;> rfl

/-- The cells of the palette RAM a route reaches are never the four aliased ones. -/
theorem route_palette_not_alias {a : InternalAddr} {i : BitVec 5} (h : route a = .palette i) : i.toNat ∉ aliasCells := by
  unfold route at h
  split_ifs at h
  cases h
  exact palidx_not_alias _

end Sys2Proof.Machine
end

