-- ==== Sys2Proof/Laws/Decoder.lean ====
section
/-! SUPPORT. What DECODE does, said once (spec 42_decoder.md R146, R150): the explicit form of a tile row and of any run of
tile rows, in terms of the banks and the answers at its start. -/

namespace Sys2Proof.Machine

/-- The byte the `n`-th router read from a state returns, when the reads before it were reads too: its answer's byte, or
the bank's. -/
def readAt (s : State) (cart : List CartAnswer) (n : Nat) (a : RouterAddr) : Byte :=
  (cart.getD n unclaimed).byte.getD (bankRead s (maskAddr a))

/-- The call the `n`-th router read makes. -/
def callAt (cart : List CartAnswer) (n : Nat) (a : RouterAddr) : HookCall :=
  ⟨false, maskAddr a, wdataOnRead, cart.getD n unclaimed⟩

/-- The colour index of a column of a tile row. -/
def rowIndex (ti : BitVec 1) (s : State) (cart : List CartAnswer) (j : TileRow) (col : Nat) : BitVec 2 :=
  unpackLane (readAt s cart 0 (lowPlaneAddr ti j)) (readAt s cart 1 (highPlaneAddr ti j)) col

/-- The pixel of a column of a tile row. -/
def rowPixel (ti : BitVec 1) (ps : BitVec 3) (s : State) (cart : List CartAnswer) (j : TileRow) (col : Nat) : Resp :=
  rgba (lookup (readAt s cart (2 + col) (colorAddr (rowIndex ti s cart j col) ps)))

/-- The ten calls of a tile row, oldest first. -/
def rowCalls (ti : BitVec 1) (ps : BitVec 3) (s : State) (cart : List CartAnswer) (j : TileRow) : List HookCall :=
  [callAt cart 0 (lowPlaneAddr ti j), callAt cart 1 (highPlaneAddr ti j)] ++
    (List.range 8).map fun col => callAt cart (2 + col) (colorAddr (rowIndex ti s cart j col) ps)

/-- The key in `DIAG` at which a column of a tile row is written. -/
def columnKey (ti : BitVec 1) (j : TileRow) (col : Nat) : Nat := diagKey ti (pixelIndex (pixelX j col) (pixelY j))

/-- `DIAG` after a tile row. -/
def rowDiag (ti : BitVec 1) (ps : BitVec 3) (s : State) (cart : List CartAnswer) (m : Memory) (j : TileRow) : Memory :=
  (List.range 8).foldl (fun m col => writePixel m (columnKey ti j col) (rowPixel ti ps s cart j col)) m

theorem nextAnswer_drop {s t : State} {n : Nat} (h : t.cart = s.cart.drop n) : nextAnswer t = s.cart.getD n unclaimed := by
  simp [nextAnswer, h, List.getD_eq_getElem?_getD, List.head?_drop, List.headD_eq_head?_getD]

/-- One router read in the middle of a run of reads. -/
theorem memReadValue_drop {s t : State} {n : Nat} (hc : t.cart = s.cart.drop n) (hp : t.pat = s.pat) (hq : t.pal = s.pal)
    (a : RouterAddr) : memReadValue a t = readAt s s.cart n a := by
  rw [memReadValue_eq, nextAnswer_drop hc, bankRead_congr hp hq, readAt]

@[simp] theorem colour_fst (ci : BitVec 2) (ps : BitVec 3) (s : State) :
    (colour ci ps s).1 = rgba (lookup (memReadValue (colorAddr ci ps) s)) := rfl

@[simp] theorem colour_snd (ci : BitVec 2) (ps : BitVec 3) (s : State) :
    (colour ci ps s).2 = hookCall false (maskAddr (colorAddr ci ps)) wdataOnRead s := rfl

/-- One column, from a state reached after `n` reads. -/
theorem decodeColumn_eq (ti : BitVec 1) (ps : BitVec 3) (j : TileRow) (lo hi : Byte) (col : Nat) {s t : State} {n : Nat}
    (hp : t.pat = s.pat) (hq : t.pal = s.pal) (hc : t.cart = s.cart.drop n) :
    decodeColumn ti ps j lo hi t col = { t with
      diag := writePixel t.diag (columnKey ti j col)
        (rgba (lookup (readAt s s.cart n (colorAddr (unpackLane lo hi col) ps))))
      cart := s.cart.drop (n + 1)
      hooks := callAt s.cart n (colorAddr (unpackLane lo hi col) ps) :: t.hooks } := by
  rw [← memReadValue_drop hc hp hq]
  simp only [callAt, ← nextAnswer_drop hc]
  rw [← List.drop_drop, ← hc, List.drop_one]
  rfl

/-- The columns of a tile row up to `n`, from a state reached after the two plane reads. -/
theorem decodeColumns_eq (ti : BitVec 1) (ps : BitVec 3) (j : TileRow) (lo hi : Byte) {s t : State}
    (hp : t.pat = s.pat) (hq : t.pal = s.pal) (hc : t.cart = s.cart.drop 2) (n : Nat) :
    (List.range n).foldl (decodeColumn ti ps j lo hi) t = { t with
      diag := (List.range n).foldl (fun m col => writePixel m (columnKey ti j col)
        (rgba (lookup (readAt s s.cart (2 + col) (colorAddr (unpackLane lo hi col) ps))))) t.diag
      cart := s.cart.drop (2 + n)
      hooks := ((List.range n).map fun col =>
        callAt s.cart (2 + col) (colorAddr (unpackLane lo hi col) ps)).reverse ++ t.hooks } := by
  induction n with
  | zero => simp [← hc]
  | succ n ih =>
    rw [List.range_succ, List.foldl_append, ih, List.foldl_cons, List.foldl_nil,
      decodeColumn_eq (s := s) (n := 2 + n) ti ps j lo hi n ?_ ?_ ?_]
    · simp only [List.foldl_append, List.foldl_cons, List.foldl_nil, List.map_append, List.map_cons, List.map_nil,
        List.reverse_append, List.reverse_cons, List.reverse_nil, List.nil_append, List.cons_append, Nat.add_assoc]
    · exact hp
    · exact hq
    · rfl

/-- A tile row in explicit form (R146). -/
theorem decodeRow_eq (ti : BitVec 1) (ps : BitVec 3) (s : State) (j : TileRow) :
    decodeRow ti ps s j = { s with
      diag := rowDiag ti ps s s.cart s.diag j
      cart := s.cart.drop 10
      hooks := (rowCalls ti ps s s.cart j).reverse ++ s.hooks } := by
  have h0 : memReadValue (lowPlaneAddr ti j) s = readAt s s.cart 0 (lowPlaneAddr ti j) :=
    memReadValue_drop rfl rfl rfl _
  have hc : (hookCall false (maskAddr (lowPlaneAddr ti j)) wdataOnRead s).cart = s.cart.drop 1 := by simp
  have h1 := memReadValue_drop (s := s) hc rfl rfl (highPlaneAddr ti j)
  have ha : nextAnswer (hookCall false (maskAddr (lowPlaneAddr ti j)) wdataOnRead s) = s.cart.getD 1 unclaimed := nextAnswer_drop hc
  have hb : nextAnswer s = s.cart.getD 0 unclaimed := nextAnswer_drop (n := 0) rfl
  unfold decodeRow
  simp only [memRead_fst, memRead_snd]
  rw [h0, h1, decodeColumns_eq (s := s) ti ps j _ _ ?_ ?_ ?_]
  · simp only [rowCalls, List.reverse_append, List.append_assoc, hookCall_hooks, ha, hb]
    rfl
  · rfl
  · rfl
  · simp only [hookCall_cart, ← List.drop_one, List.drop_drop]

/-- The calls of a run of tile rows, oldest first. -/
def tableCalls (ti : BitVec 1) (ps : BitVec 3) (s : State) : List TileRow → List CartAnswer → List HookCall
  | [], _ => []
  | j :: js, cart => rowCalls ti ps s cart j ++ tableCalls ti ps s js (cart.drop 10)

/-- `DIAG` after a run of tile rows. -/
def tableDiag (ti : BitVec 1) (ps : BitVec 3) (s : State) : List TileRow → List CartAnswer → Memory → Memory
  | [], _, m => m
  | j :: js, cart, m => tableDiag ti ps s js (cart.drop 10) (rowDiag ti ps s cart m j)

/-- The explicit forms look at the state's banks alone. -/
theorem rowCalls_congr {s t : State} (hp : t.pat = s.pat) (hq : t.pal = s.pal) (ti : BitVec 1) (ps : BitVec 3)
    (cart : List CartAnswer) (j : TileRow) : rowCalls ti ps t cart j = rowCalls ti ps s cart j := by
  simp only [rowCalls, rowIndex, readAt, bankRead_congr hp hq]

theorem rowDiag_congr {s t : State} (hp : t.pat = s.pat) (hq : t.pal = s.pal) (ti : BitVec 1) (ps : BitVec 3)
    (cart : List CartAnswer) (m : Memory) (j : TileRow) : rowDiag ti ps t cart m j = rowDiag ti ps s cart m j := by
  simp only [rowDiag, rowPixel, rowIndex, readAt, bankRead_congr hp hq]

theorem tableCalls_congr {s t : State} (hp : t.pat = s.pat) (hq : t.pal = s.pal) (ti : BitVec 1) (ps : BitVec 3)
    (js : List TileRow) (cart : List CartAnswer) : tableCalls ti ps t js cart = tableCalls ti ps s js cart := by
  induction js generalizing cart with
  | nil => rfl
  | cons j js ih => simp only [tableCalls, rowCalls_congr hp hq, ih]

theorem tableDiag_congr {s t : State} (hp : t.pat = s.pat) (hq : t.pal = s.pal) (ti : BitVec 1) (ps : BitVec 3)
    (js : List TileRow) (cart : List CartAnswer) (m : Memory) :
    tableDiag ti ps t js cart m = tableDiag ti ps s js cart m := by
  induction js generalizing cart m with
  | nil => rfl
  | cons j js ih => simp only [tableDiag, rowDiag_congr hp hq, ih]

/-- A run of tile rows in explicit form: only `DIAG`, the cartridge's answers and the hook's signals move (R146, R150). -/
theorem decodeRows_eq (ti : BitVec 1) (ps : BitVec 3) (js : List TileRow) (s : State) :
    js.foldl (decodeRow ti ps) s = { s with
      diag := tableDiag ti ps s js s.cart s.diag
      cart := s.cart.drop (10 * js.length)
      hooks := (tableCalls ti ps s js s.cart).reverse ++ s.hooks } := by
  induction js generalizing s with
  | nil => rfl
  | cons j js ih =>
    have h := decodeRow_eq ti ps s j
    have hp : (decodeRow ti ps s j).pat = s.pat := by rw [h]
    have hq : (decodeRow ti ps s j).pal = s.pal := by rw [h]
    rw [List.foldl_cons, ih, tableCalls_congr hp hq, tableDiag_congr hp hq, h]
    simp only [tableCalls, tableDiag, List.reverse_append, List.append_assoc, List.drop_drop, List.length_cons,
      Nat.mul_add_one, Nat.add_comm 10]

/-- The `n`-th tile row of DECODE's loops. -/
def tileRowAt (n : Nat) : TileRow := ⟨BitVec.ofNat 4 (n / 128), BitVec.ofNat 4 (n / 8 % 16), BitVec.ofNat 3 (n % 8)⟩

/-- DECODE's loops visit 2048 tile rows, in the order of their numbers (R150). -/
theorem tileRows_eq : tileRows = (List.range 2048).map tileRowAt := by
  have step : ∀ m n : Nat, (List.range (m * n)) = (List.range m).flatMap fun a => (List.range n).map fun b => a * n + b := by
    intro m n
    induction m with
    | zero => simp
    | succ m ih =>
      rw [List.range_succ, List.flatMap_append, ← ih, Nat.succ_mul, List.range_add]
      simp
  rw [show (2048 : Nat) = 16 * 128 from rfl, step, List.map_flatMap]
  unfold tileRows
  refine List.flatMap_congr fun ty hty => ?_
  rw [show (128 : Nat) = 16 * 8 from rfl, step, List.map_map, List.map_flatMap]
  refine List.flatMap_congr fun tx htx => ?_
  rw [List.map_map]
  refine List.map_congr_left fun row hrow => ?_
  have h1 := List.mem_range.1 hty
  have h2 := List.mem_range.1 htx
  have h3 := List.mem_range.1 hrow
  simp only [Function.comp_apply, tileRowAt, TileRow.mk.injEq]
  refine ⟨congrArg _ ?_, congrArg _ ?_, congrArg _ ?_⟩ <;> omega

@[simp] theorem length_tileRows : tileRows.length = 2048 := by simp [tileRows_eq]

/-- DECODE in explicit form (R146). -/
theorem execDecode_eq (ti : BitVec 1) (ps : BitVec 3) (s : State) :
    execDecode ti ps s = .next { s with
      diag := tableDiag ti ps s tileRows s.cart s.diag
      cart := s.cart.drop 20480
      hooks := (tableCalls ti ps s tileRows s.cart).reverse ++ s.hooks
      resp := 0 } := by
  unfold execDecode
  rw [decodeRows_eq, length_tileRows, respondZero, respond]

/-- DECODE in explicit form, as `exec` answers it (R146). -/
theorem exec_decode_eq (ti : BitVec 1) (ps : BitVec 3) (s : State) :
    exec (.decode ti ps) s = .next { s with
      diag := tableDiag ti ps s tileRows s.cart s.diag
      cart := s.cart.drop 20480
      hooks := (tableCalls ti ps s tileRows s.cart).reverse ++ s.hooks
      resp := 0 } := execDecode_eq ti ps s

@[simp] theorem length_rowCalls (ti : BitVec 1) (ps : BitVec 3) (s : State) (cart : List CartAnswer) (j : TileRow) :
    (rowCalls ti ps s cart j).length = 10 := by simp [rowCalls]

@[simp] theorem length_tableCalls (ti : BitVec 1) (ps : BitVec 3) (s : State) (js : List TileRow) (cart : List CartAnswer) :
    (tableCalls ti ps s js cart).length = 10 * js.length := by
  induction js generalizing cart with
  | nil => rfl
  | cons j js ih => simp [tableCalls, ih]; omega

/-- Every call of a run of tile rows is a read, with an answer of the list (or none). -/
theorem mem_tableCalls {ti : BitVec 1} {ps : BitVec 3} {s : State} {js : List TileRow} {cart : List CartAnswer}
    {c : HookCall} (h : c ∈ tableCalls ti ps s js cart) : c.we = false ∧ ∃ n, c.answer = cart.getD n unclaimed := by
  induction js generalizing cart with
  | nil => simp [tableCalls] at h
  | cons j js ih =>
    rcases List.mem_append.1 h with h | h
    · simp only [rowCalls, List.mem_append, List.mem_cons, List.mem_map, List.not_mem_nil, or_false] at h
      rcases h with (rfl | rfl) | ⟨col, -, rfl⟩
      · exact ⟨rfl, 0, rfl⟩
      · exact ⟨rfl, 1, rfl⟩
      · exact ⟨rfl, 2 + col, rfl⟩
    · obtain ⟨h1, n, h2⟩ := ih h
      refine ⟨h1, 10 + n, ?_⟩
      rw [h2]
      simp [List.getD_eq_getElem?_getD]

/-! ### The calls by their number -/

theorem tileRows_getElem? {n : Nat} (h : n < 2048) : tileRows[n]? = some (tileRowAt n) := by
  rw [tileRows_eq]; simp [h]

theorem rowCalls_low (ti : BitVec 1) (ps : BitVec 3) (s : State) (cart : List CartAnswer) (j : TileRow) :
    (rowCalls ti ps s cart j)[0]? = some (callAt cart 0 (lowPlaneAddr ti j)) := rfl

theorem rowCalls_high (ti : BitVec 1) (ps : BitVec 3) (s : State) (cart : List CartAnswer) (j : TileRow) :
    (rowCalls ti ps s cart j)[1]? = some (callAt cart 1 (highPlaneAddr ti j)) := rfl

theorem rowCalls_column (ti : BitVec 1) (ps : BitVec 3) (s : State) (cart : List CartAnswer) (j : TileRow) {col : Nat}
    (h : col < 8) : (rowCalls ti ps s cart j)[2 + col]? =
      some (callAt cart (2 + col) (colorAddr (rowIndex ti s cart j col) ps)) := by
  rw [rowCalls, List.getElem?_append_right (by simp)]
  simp [h]

/-- Calls 10 n to 10 n + 9 are those of the `n`-th tile row (R150). -/
theorem tableCalls_getElem? {ti : BitVec 1} {ps : BitVec 3} {s : State} {js : List TileRow} {cart : List CartAnswer}
    {n k : Nat} {j : TileRow} (h : js[n]? = some j) (hk : k < 10) :
    (tableCalls ti ps s js cart)[10 * n + k]? = (rowCalls ti ps s (cart.drop (10 * n)) j)[k]? := by
  induction js generalizing cart n with
  | nil => simp at h
  | cons a js ih =>
    cases n with
    | zero =>
      obtain rfl : a = j := by simpa using h
      rw [tableCalls, Nat.mul_zero, Nat.zero_add, List.drop_zero, List.getElem?_append_left (by simpa using hk)]
    | succ n =>
      rw [tableCalls, List.getElem?_append_right (by simp; omega), length_rowCalls,
        show 10 * (n + 1) + k - 10 = 10 * n + k by omega, ih (by simpa using h), List.drop_drop,
        show 10 + 10 * n = 10 * (n + 1) by omega]

/-- Call `n` of a run of tile rows is a read and gets answer `n` of the list. -/
theorem tableCalls_answer {ti : BitVec 1} {ps : BitVec 3} {s : State} {js : List TileRow} {cart : List CartAnswer}
    {n : Nat} {c : HookCall} (h : (tableCalls ti ps s js cart)[n]? = some c) :
    c.we = false ∧ c.answer = cart.getD n unclaimed := by
  induction js generalizing cart n with
  | nil => simp [tableCalls] at h
  | cons j js ih =>
    by_cases hn : n < 10
    · rw [tableCalls, List.getElem?_append_left (by simpa using hn)] at h
      obtain rfl | rfl | ⟨col, hcol, rfl⟩ : n = 0 ∨ n = 1 ∨ ∃ col < 8, n = 2 + col := by
        rcases n with _ | _ | n
        · exact .inl rfl
        · exact .inr (.inl rfl)
        · exact .inr (.inr ⟨n, by omega, by omega⟩)
      · rw [rowCalls_low] at h; cases h; exact ⟨rfl, rfl⟩
      · rw [rowCalls_high] at h; cases h; exact ⟨rfl, rfl⟩
      · rw [rowCalls_column _ _ _ _ _ hcol] at h; cases h; exact ⟨rfl, rfl⟩
    · rw [tableCalls, List.getElem?_append_right (by simp; omega), length_rowCalls] at h
      obtain ⟨h1, h2⟩ := ih h
      refine ⟨h1, h2.trans ?_⟩
      rw [List.getD_eq_getElem?_getD, List.getD_eq_getElem?_getD, List.getElem?_drop, show 10 + (n - 10) = n by omega]

end Sys2Proof.Machine
end

