-- ==== Sys2Proof/Laws/PerInstr.lean ====
section
/-! SUPPORT. Facts about each operation as syntax, one lemma per constructor: the family CanonicalWord. -/

namespace Sys2Proof.Laws

/-- The canonical word of an operation selects its own row of the opcode table, whose every masked bit is a bit the
operation reads, and leaves the ignored bits 0 (spec 30_encoding.md R75, R91). -/
def CanonicalWord.Statement (i : Instr) : Prop :=
  i.wf = true ∧ encode i &&& ~~~significantBits i = 0 ∧
    ∃ r ∈ opcodeTable, r.mnemonic = mnemonicOf i ∧ r.selects (encode i) = true ∧ r.mask &&& significantBits i = r.mask

namespace CanonicalWord

/-- The form in which each lemma is decided: the row is looked for by its name. -/
theorem of_any {i : Instr} (h : i.wf = true ∧ encode i &&& ~~~significantBits i = 0 ∧
    (opcodeTable.any fun r => r.mnemonic == mnemonicOf i && r.selects (encode i) &&
      (r.mask &&& significantBits i == r.mask)) = true) : Statement i := by
  obtain ⟨h1, h2, h3⟩ := h
  obtain ⟨r, hr, h⟩ := List.any_eq_true.1 h3
  simp only [Bool.and_eq_true, beq_iff_eq] at h
  exact ⟨h1, h2, r, hr, h.1.1, h.1.2, h.2⟩

theorem rdCtrl : Statement .rdCtrl := of_any (by decide)

theorem rdMask : Statement .rdMask := of_any (by decide)

theorem rdStatus : Statement .rdStatus := of_any (by decide)

theorem rdOamaddr : Statement .rdOamaddr := of_any (by decide)

theorem rdOamdata : Statement .rdOamdata := of_any (by decide)

theorem rdScroll : Statement .rdScroll := of_any (by decide)

theorem rdAddr : Statement .rdAddr := of_any (by decide)

theorem rdData : Statement .rdData := of_any (by decide)

theorem wrCtrl (d : Byte) : Statement (.wrCtrl d) := of_any (by revert d; decide)

theorem wrMask (d : Byte) : Statement (.wrMask d) := of_any (by revert d; decide)

theorem wrStatus (d : Byte) : Statement (.wrStatus d) := of_any (by revert d; decide)

theorem wrOamaddr (d : Byte) : Statement (.wrOamaddr d) := of_any (by revert d; decide)

theorem wrOamdata (d : Byte) : Statement (.wrOamdata d) := of_any (by revert d; decide)

theorem wrScroll (d : Byte) : Statement (.wrScroll d) := of_any (by revert d; decide)

theorem wrAddr (d : Byte) : Statement (.wrAddr d) := of_any (by revert d; decide)

theorem wrData (d : Byte) : Statement (.wrData d) := of_any (by revert d; decide)

theorem tick : Statement .tick := of_any (by decide)

theorem irqAck : Statement .irqAck := of_any (by decide)

theorem color (ci : BitVec 2) (ps : BitVec 3) : Statement (.color ci ps) := of_any (by revert ci ps; decide)

theorem decode (ti : BitVec 1) (ps : BitVec 3) : Statement (.decode ti ps) := of_any (by revert ti ps; decide)

end CanonicalWord

end Sys2Proof.Laws
end

