-- ==== Sys2Proof/Laws/Step.lean ====
section
/-! SUPPORT. What a step can do, said once (spec 30_encoding.md R71): RESET, one operation, or nothing. -/

namespace Sys2Proof.Machine

@[simp] theorem idleStep_beginStep (s : State) : idleStep (beginStep s) = beginStep s := rfl

/-- A step takes RESET, runs the operation its word decodes to, or is idle. -/
theorem step_cases {s t : State} (h : step s = .next t) :
    (∃ e rest, s.edges = e :: rest ∧ e.rst = true ∧ t = { State.reset with edges := rest, cart := s.cart }) ∨
    (∃ w rest i, s.edges = ⟨false, true, w⟩ :: rest ∧ decode w = .ok i ∧ exec i (beginStep s) = .next t) ∨
    t = beginStep s := by
  unfold step onEdge at h
  cases he : s.edges with
  | nil => exact .inr (.inr (by simpa [nextEdge, he, idleEdge] using h.symm))
  | cons e rest =>
    obtain ⟨r, v, w⟩ := e
    simp only [nextEdge, he, List.headD_cons] at h
    cases r with
    | true =>
      refine .inl ⟨_, rest, rfl, rfl, ?_⟩
      simpa [resetBlock, beginStep, he] using h.symm
    | false =>
      cases v with
      | false => exact .inr (.inr (by simpa using h.symm))
      | true =>
        cases hd : decode w with
        | error x => exact .inr (.inr (by simpa [hd] using h.symm))
        | ok i => exact .inr (.inl ⟨w, rest, i, rfl, hd, by simpa [hd] using h⟩)

/-- One more step of a run. -/
theorem run_succ (k : Nat) {s t : State} (h : step s = .next t) :
    Host.Core.run core (k + 1) s = Host.Core.run core k t := by
  have h' : core.step s = .next t := h
  simp only [Host.Core.run, h']

theorem run_one {s t : State} (h : step s = .next t) : Host.Core.run core 1 s = .next t := by
  rw [run_succ 0 h]; rfl

/-- A run and one more step at its end. -/
theorem run_snoc {k : Nat} {s t u : State} (h : Host.Core.run core k s = .next t) (h' : step t = .next u) :
    Host.Core.run core (k + 1) s = .next u := by
  induction k generalizing s with
  | zero => cases h; exact run_one h'
  | succ k ih =>
    cases hs : step s with
    | next v => rw [run_succ _ hs] at h ⊢; exact ih h
    | fault r => exact nomatch r
    | refused r =>
      have hc : core.step s = .refused r := hs
      simp only [Host.Core.run, hc] at h
      cases h

/-- WR_ADDR in explicit form (R114). -/
theorem exec_wrAddr_eq (d : Byte) (s : State) : exec (.wrAddr d) s = .next { s with
    vaddr := if s.latch then withLowHalf s.vaddr d else withHighHalf s.vaddr d
    latch := !s.latch
    resp := 0 } := by
  simp only [exec, execWrAddr, respondZero, respond]
  cases h : s.latch <;> simp

end Sys2Proof.Machine
end

