-- ==== Sys2Proof/Laws/View.lean ====
section
/-! SUPPORT. The diagnostic views as memory: what writing a pixel, a tile row and a run of tile rows does to `DIAG`. -/

namespace Sys2Proof.Machine

/-! ### One pixel -/

/-- Writing a pixel leaves every byte but its four alone. -/
theorem read_writePixel_other {m : Memory} {k k' : Nat} (p : Resp) (h : k' < k ∨ k + 4 ≤ k') :
    (writePixel m k p).read k' = m.read k' := by
  unfold writePixel
  rw [Memory.read_write_other _ _ (by omega), Memory.read_write_other _ _ (by omega),
    Memory.read_write_other _ _ (by omega), Memory.read_write_other _ _ (by omega)]

theorem writePixel_wf {m : Memory} (h : m.wf) (k : Nat) (p : Resp) : (writePixel m k p).wf :=
  Memory.write_wf (Memory.write_wf (Memory.write_wf (Memory.write_wf h _ _) _ _) _ _) _ _

theorem writePixel_below {m : Memory} {n k : Nat} (h : m.below n) (hk : k + 3 < n) (p : Resp) : (writePixel m k p).below n :=
  Memory.write_below (Memory.write_below (Memory.write_below (Memory.write_below h (by omega) _) (by omega) _) (by omega) _)
    hk _

/-- The four bytes of a pixel just written. -/
theorem read_writePixel_self {m : Memory} (h : m.wf) (k : Nat) (p : Resp) {c : Nat} (hc : c < 4) :
    (writePixel m k p).read (k + c) = pixelByte p c := by
  have h1 := Memory.write_wf h k (pixelByte p 0)
  have h2 := Memory.write_wf h1 (k + 1) (pixelByte p 1)
  have h3 := Memory.write_wf h2 (k + 2) (pixelByte p 2)
  unfold writePixel
  obtain rfl | rfl | rfl | rfl : c = 0 ∨ c = 1 ∨ c = 2 ∨ c = 3 := by omega
  · rw [Memory.read_write_other _ _ (by omega), Memory.read_write_other _ _ (by omega),
      Memory.read_write_other _ _ (by omega), Nat.add_zero, Memory.read_write_self h]
  · rw [Memory.read_write_other _ _ (by omega), Memory.read_write_other _ _ (by omega), Memory.read_write_self h1]
  · rw [Memory.read_write_other _ _ (by omega), Memory.read_write_self h2]
  · exact Memory.read_write_self h3 _ _

/-! ### A tile row and a run of tile rows -/

/-- A column's key is the pixel (x, y) of its view. -/
theorem columnKey_eq (ti : BitVec 1) (j : TileRow) (col : Nat) :
    columnKey ti j col = ti.toNat * 65536 +
      ((j.ty.toNat * 8 + j.row.toNat) * 128 + (j.tx.toNat * 8 + col)) * 4 := rfl

/-- A column's four bytes lie inside its view. -/
theorem columnKey_lt (ti : BitVec 1) (j : TileRow) {col : Nat} (h : col < 8) : columnKey ti j col + 3 < (ti.toNat + 1) * 65536 := by
  have := j.ty.isLt; have := j.tx.isLt; have := j.row.isLt
  rw [columnKey_eq]; omega

theorem le_columnKey (ti : BitVec 1) (j : TileRow) (col : Nat) : ti.toNat * 65536 ≤ columnKey ti j col := by
  rw [columnKey_eq]; omega

/-- A tile row leaves a byte alone that is in none of its columns. -/
theorem read_rowDiag_other {ti : BitVec 1} {ps : BitVec 3} {s : State} {cart : List CartAnswer} {m : Memory} {j : TileRow}
    {k : Nat} (h : ∀ col < 8, k < columnKey ti j col ∨ columnKey ti j col + 4 ≤ k) :
    (rowDiag ti ps s cart m j).read k = m.read k := by
  have key : ∀ n ≤ 8, ((List.range n).foldl
      (fun m col => writePixel m (columnKey ti j col) (rowPixel ti ps s cart j col)) m).read k = m.read k := by
    intro n hn
    induction n with
    | zero => rfl
    | succ n ih =>
      rw [List.range_succ, List.foldl_append, List.foldl_cons, List.foldl_nil,
        read_writePixel_other _ (h n (by omega)), ih (by omega)]
  exact key 8 (Nat.le_refl 8)

theorem rowDiag_wf {m : Memory} (h : m.wf) (ti : BitVec 1) (ps : BitVec 3) (s : State) (cart : List CartAnswer)
    (j : TileRow) : (rowDiag ti ps s cart m j).wf := by
  have key : ∀ n, ((List.range n).foldl
      (fun m col => writePixel m (columnKey ti j col) (rowPixel ti ps s cart j col)) m).wf := by
    intro n
    induction n with
    | zero => exact h
    | succ n ih =>
      rw [List.range_succ, List.foldl_append, List.foldl_cons, List.foldl_nil]
      exact writePixel_wf ih _ _
  exact key 8

theorem rowDiag_below {m : Memory} (h : m.below 131072) (ti : BitVec 1) (ps : BitVec 3) (s : State)
    (cart : List CartAnswer) (j : TileRow) : (rowDiag ti ps s cart m j).below 131072 := by
  have key : ∀ n ≤ 8, ((List.range n).foldl
      (fun m col => writePixel m (columnKey ti j col) (rowPixel ti ps s cart j col)) m).below 131072 := by
    intro n hn
    induction n with
    | zero => exact h
    | succ n ih =>
      rw [List.range_succ, List.foldl_append, List.foldl_cons, List.foldl_nil]
      have := columnKey_lt ti j (col := n) (by omega)
      have := ti.isLt
      exact writePixel_below (ih (by omega)) (by omega) _
  exact key 8 (Nat.le_refl 8)

/-- The bytes of a column just after its tile row. -/
theorem read_rowDiag_self {m : Memory} (h : m.wf) (ti : BitVec 1) (ps : BitVec 3) (s : State) (cart : List CartAnswer)
    (j : TileRow) {col c : Nat} (hcol : col < 8) (hc : c < 4) :
    (rowDiag ti ps s cart m j).read (columnKey ti j col + c) = pixelByte (rowPixel ti ps s cart j col) c := by
  have key : ∀ n ≤ 8, ((List.range n).foldl
        (fun m col => writePixel m (columnKey ti j col) (rowPixel ti ps s cart j col)) m).wf ∧
      (col < n → ((List.range n).foldl
        (fun m col => writePixel m (columnKey ti j col) (rowPixel ti ps s cart j col)) m).read (columnKey ti j col + c) =
        pixelByte (rowPixel ti ps s cart j col) c) := by
    intro n hn
    induction n with
    | zero => exact ⟨h, by omega⟩
    | succ n ih =>
      obtain ⟨ih1, ih2⟩ := ih (by omega)
      rw [List.range_succ, List.foldl_append, List.foldl_cons, List.foldl_nil]
      refine ⟨writePixel_wf ih1 _ _, fun hlt => ?_⟩
      by_cases hn' : col = n
      · subst hn'; exact read_writePixel_self ih1 _ _ hc
      · rw [read_writePixel_other, ih2 (by omega)]
        simp only [columnKey_eq]; omega
  exact (key 8 (Nat.le_refl 8)).2 hcol

theorem tableDiag_wf {m : Memory} (h : m.wf) (ti : BitVec 1) (ps : BitVec 3) (s : State) (js : List TileRow)
    (cart : List CartAnswer) : (tableDiag ti ps s js cart m).wf := by
  induction js generalizing cart m with
  | nil => exact h
  | cons j js ih => exact ih (rowDiag_wf h ti ps s cart j) _

theorem tableDiag_below {m : Memory} (h : m.below 131072) (ti : BitVec 1) (ps : BitVec 3) (s : State) (js : List TileRow)
    (cart : List CartAnswer) : (tableDiag ti ps s js cart m).below 131072 := by
  induction js generalizing cart m with
  | nil => exact h
  | cons j js ih => exact ih (rowDiag_below h ti ps s cart j) _

/-- A run of tile rows leaves a byte alone that is in no column of any of them. -/
theorem read_tableDiag_other {ti : BitVec 1} {ps : BitVec 3} {s : State} {js : List TileRow} {cart : List CartAnswer}
    {m : Memory} {k : Nat} (h : ∀ j ∈ js, ∀ col < 8, k < columnKey ti j col ∨ columnKey ti j col + 4 ≤ k) :
    (tableDiag ti ps s js cart m).read k = m.read k := by
  induction js generalizing cart m with
  | nil => rfl
  | cons j js ih =>
    rw [tableDiag, ih fun j' hj' => h j' (List.mem_cons_of_mem _ hj'), read_rowDiag_other (h j List.mem_cons_self)]

/-! ### The tile rows of DECODE -/

/-- Different tile rows write different bytes (R145, R149). -/
theorem columnKey_disjoint (ti : BitVec 1) {a b c d : Nat} (ha : a < 2048) (hb : b < 2048) (hab : a ≠ b)
    (hc : c < 8) (hd : d < 8) :
    columnKey ti (tileRowAt a) c + 4 ≤ columnKey ti (tileRowAt b) d ∨
      columnKey ti (tileRowAt b) d + 4 ≤ columnKey ti (tileRowAt a) c := by
  have key : ∀ n < 2048, ∃ A B C, A < 16 ∧ B < 16 ∧ C < 8 ∧ n = 128 * A + 8 * B + C ∧
      ∀ x, columnKey ti (tileRowAt n) x = ti.toNat * 65536 + 4096 * A + 512 * C + 32 * B + 4 * x := by
    intro n hn
    refine ⟨n / 128, n / 8 % 16, n % 8, by omega, by omega, by omega, by omega, fun x => ?_⟩
    simp only [columnKey_eq, tileRowAt, BitVec.toNat_ofNat]
    rw [Nat.mod_eq_of_lt (a := n / 128) (by omega), Nat.mod_eq_of_lt (a := n / 8 % 16) (by omega),
      Nat.mod_eq_of_lt (a := n % 8) (by omega)]
    ring
  obtain ⟨A, B, C, hA, hB, hC, rfl, e⟩ := key a ha
  obtain ⟨A', B', C', hA', hB', hC', rfl, e'⟩ := key b hb
  rw [e, e']
  by_contra hcon
  have hx : 1024 * A + 128 * C + 8 * B + c = 1024 * A' + 128 * C' + 8 * B' + d := by omega
  have hAA : A = A' := by omega
  have hCC : C = C' := by omega
  have hBB : B = B' := by omega
  exact hab (by rw [hAA, hBB, hCC])

/-- The bytes of a pixel after a run of consecutive tile rows: those its tile row wrote. -/
theorem read_tableDiag_self (ti : BitVec 1) (ps : BitVec 3) (s : State) {col c : Nat} (hcol : col < 8) (hc : c < 4)
    {n start len : Nat} {cart : List CartAnswer} {m : Memory} (hm : m.wf) (hle : start + len ≤ 2048) (hn : n < len) :
    (tableDiag ti ps s ((List.range' start len).map tileRowAt) cart m).read (columnKey ti (tileRowAt (start + n)) col + c) =
      pixelByte (rowPixel ti ps s (cart.drop (10 * n)) (tileRowAt (start + n)) col) c := by
  induction n generalizing start len cart m with
  | zero =>
    obtain ⟨len, rfl⟩ : ∃ l, len = l + 1 := ⟨len - 1, by omega⟩
    rw [List.range'_succ, List.map_cons, tableDiag, read_tableDiag_other]
    · exact read_rowDiag_self hm ti ps s cart _ hcol hc
    · intro j hj d hd
      obtain ⟨x, hx, rfl⟩ := List.mem_map.1 hj
      have hx := List.mem_range'_1.1 hx
      have := columnKey_disjoint ti (a := start) (b := x) (by omega) (by omega) (by omega) hcol hd
      simp only [Nat.add_zero]
      omega
  | succ n ih =>
    obtain ⟨len, rfl⟩ : ∃ l, len = l + 1 := ⟨len - 1, by omega⟩
    rw [List.range'_succ, List.map_cons, tableDiag, show start + (n + 1) = start + 1 + n by omega,
      ih (rowDiag_wf hm ti ps s cart _) (by omega) (by omega), List.drop_drop, show 10 + 10 * n = 10 * (n + 1) by omega]

/-- The four bytes of a formatted pixel (R143). -/
theorem pixelByte_rgba (p : Rgb) : pixelByte (rgba p) 0 = p.r ∧ pixelByte (rgba p) 1 = p.g ∧
    pixelByte (rgba p) 2 = p.b ∧ pixelByte (rgba p) 3 = 0xFF := by
  have := p.r.isLt; have := p.g.isLt; have := p.b.isLt
  refine ⟨?_, ?_, ?_, ?_⟩ <;> apply BitVec.eq_of_toNat_eq <;>
    simp only [pixelByte, rgba, BitVec.extractLsb'_toNat, toNat_append_add, Nat.shiftRight_eq_div_pow, alphaByte] <;>
    omega

end Sys2Proof.Machine
end

