-- ==== Sys2Proof/Tests/Slice0.lean ====
section
/-! SUPPORT. The model's own tests. Expected values are those of spec/95_test_vectors.md; each comment names the vector. -/

namespace Sys2Proof.Tests

open Sys2Proof.Machine

/-! ### Well-formedness: one ill-formed term for each check -/

/-- R95: `p` is 0 to 7. -/
theorem test_wf_rd_port : (TraceOp.rd 8).wf = false ∧ (TraceOp.rd 7).wf = true := by decide
/-- R95: `p` is 0 to 7; R94: `d` is 0 to 255. -/
theorem test_wf_wr : (TraceOp.wr 8 0).wf = false ∧ (TraceOp.wr 0 256).wf = false ∧ (TraceOp.wr 7 255).wf = true := by decide
/-- R94: `ci` is 0 to 3, `ps` is 0 to 7. -/
theorem test_wf_color : (TraceOp.color 4 0).wf = false ∧ (TraceOp.color 0 8).wf = false ∧ (TraceOp.color 3 7).wf = true := by
  decide
/-- R94: `ti` is 0 or 1, `ps` is 0 to 7. -/
theorem test_wf_decode : (TraceOp.decode 2 0).wf = false ∧ (TraceOp.decode 0 8).wf = false ∧
    (TraceOp.decode 1 7).wf = true := by decide
/-- R95: `a` is 0 to 0xFFFF, `v` is a byte. -/
theorem test_wf_setAddr_poke : (TraceOp.setAddr 0x10000).wf = false ∧ (TraceOp.poke 0x10000 0).wf = false ∧
    (TraceOp.poke 0 256).wf = false ∧ (TraceOp.poke 0xFFFF 255).wf = true := by decide
/-- R95, conflict C10: `PEEK` is not defined at 0x3EFF modulo 2^15. -/
theorem test_wf_peek : (TraceOp.peek 0x10000).wf = false ∧ (TraceOp.peek 0x3EFF).wf = false ∧
    (TraceOp.peek 0xBEFF).wf = false ∧ (TraceOp.peek 0x3EFE).wf = true ∧ (TraceOp.peek 0x3F00).wf = true := by decide

/-! ### Decoding: words written out bit by bit from R72 and R75 (class, direction, port, data) -/

theorem test_decode_rdCtrl : decode 0b0000000000000000#16 = .ok .rdCtrl := by decide
theorem test_decode_rdMask : decode 0b0000000100000000#16 = .ok .rdMask := by decide
/-- V-ENC-2: the data bits of a read are ignored. -/
theorem test_decode_rdStatus : decode 0b0000001011111111#16 = .ok .rdStatus := by decide
theorem test_decode_rdOamaddr : decode 0b0000001100000000#16 = .ok .rdOamaddr := by decide
theorem test_decode_rdOamdata : decode 0b0000010000000000#16 = .ok .rdOamdata := by decide
theorem test_decode_rdScroll : decode 0b0000010100000000#16 = .ok .rdScroll := by decide
theorem test_decode_rdAddr : decode 0b0000011000000000#16 = .ok .rdAddr := by decide
/-- V-ENC-5. -/
theorem test_decode_rdData : decode 0b0000011100000000#16 = .ok .rdData := by decide
/-- V-ENC-6. -/
theorem test_decode_wrCtrl : decode 0b0000100010000000#16 = .ok (.wrCtrl 0x80) := by decide
/-- V-CTRL-5's word. -/
theorem test_decode_wrMask : decode 0b0000100100011110#16 = .ok (.wrMask 0x1E) := by decide
/-- V-NOP-7 to V-NOP-10's words. -/
theorem test_decode_wrStatus : decode 0b0000101011111111#16 = .ok (.wrStatus 0xFF) := by decide
theorem test_decode_wrOamaddr : decode 0b0000101100010000#16 = .ok (.wrOamaddr 0x10) := by decide
theorem test_decode_wrOamdata : decode 0b0000110000100000#16 = .ok (.wrOamdata 0x20) := by decide
theorem test_decode_wrScroll : decode 0b0000110100110000#16 = .ok (.wrScroll 0x30) := by decide
/-- V-ENC-3, V-ENC-4. -/
theorem test_decode_wrAddr : decode 0b0000111000111111#16 = .ok (.wrAddr 0x3F) := by decide
theorem test_decode_wrData : decode 0b0000111100000000#16 = .ok (.wrData 0x00) := by decide
/-- V-ENC-8, V-ENC-9: the low 12 bits are ignored. -/
theorem test_decode_tick : decode 0b0001101010111100#16 = .ok .tick := by decide
theorem test_decode_irqAck : decode 0b0010111111111111#16 = .ok .irqAck := by decide
/-- V-ENC-10, V-ENC-12. -/
theorem test_decode_color : decode 0b0011000000000101#16 = .ok (.color 1 1) ∧
    decode 0b0011111111100000#16 = .ok (.color 0 0) := by decide
/-- V-ENC-13, V-ENC-14. -/
theorem test_decode_decode : decode 0b0100000000001001#16 = .ok (.decode 1 1) ∧
    decode 0b0100111111110000#16 = .ok (.decode 0 0) := by decide
/-- V-ENC-15, V-ENC-16. -/
theorem test_decode_reserved : decode 0b0101000000000000#16 = .error .reservedClass ∧
    decode 0b1111111111111111#16 = .error .reservedClass := by decide
/-- The table's numbering: bit 0 is the least significant of the one word. -/
theorem test_decodeTableWord : decodeTableWord 16 0x0E21 = some (.wrAddr 0x21) ∧ decodeTableWord 16 0x5000 = none := by decide

/-! ### One step -/

/-- The state after one step that presents a word. -/
def after (w : Nat) (s : State) : State :=
  match step (s.withFetchWord 16 w) with
  | .next t => t
  | .fault f => nomatch f
  | .refused _ => s

/-- The start state of V-NOP. -/
def nopStart : State :=
  { State.reset with ctrl := 0xA5, mask := 0x5A, vblank := true, latch := true, vaddr := 0x1234, rbuf := 0xCD, irq := true }

/-- V-NOP-1 to V-NOP-6. -/
theorem test_nop_rdCtrl : after 0x0000 nopStart = nopStart := by decide
theorem test_nop_rdMask : after 0x0100 nopStart = nopStart := by decide
theorem test_nop_rdOamaddr : after 0x0300 nopStart = nopStart := by decide
theorem test_nop_rdOamdata : after 0x0400 nopStart = nopStart := by decide
theorem test_nop_rdScroll : after 0x0500 nopStart = nopStart := by decide
theorem test_nop_rdAddr : after 0x0600 nopStart = nopStart := by decide
/-- V-NOP-7 to V-NOP-10. -/
theorem test_nop_wrStatus : after 0x0AFF nopStart = nopStart := by decide
theorem test_nop_wrOamaddr : after 0x0B10 nopStart = nopStart := by decide
theorem test_nop_wrOamdata : after 0x0C20 nopStart = nopStart := by decide
theorem test_nop_wrScroll : after 0x0D30 nopStart = nopStart := by decide

/-- V-CTRL-3: enabling during vertical blank raises nothing. -/
theorem test_wrCtrl : after 0x0880 { State.reset with vblank := true } = { State.reset with vblank := true, ctrl := 0x80 } := by
  decide
/-- V-CTRL-5. -/
theorem test_wrMask : after 0x091E State.reset = { State.reset with mask := 0x1E } := by decide

/-- V-STAT-4. -/
theorem test_rdStatus : after 0x0200 { State.reset with vblank := true, rbuf := 0xBB, latch := true } =
    { State.reset with rbuf := 0xBB, resp := 0x9B } := by decide
/-- V-STAT-5: reading does not acknowledge. -/
theorem test_rdStatus_irq : (after 0x0200 { State.reset with vblank := true, irq := true }).irq = true := by decide

/-- V-ADDR-4: the low half is kept; bit 7 of the byte is not used (V-ADDR-3). -/
theorem test_wrAddr_high : after 0x0E3F { State.reset with vaddr := 0x1234 } =
      { State.reset with vaddr := 0x3F34, latch := true } ∧
    (after 0x0EBF State.reset).vaddr = 0x3F00 := by decide
/-- V-ADDR-5: the high half is kept. -/
theorem test_wrAddr_low : after 0x0EFF { State.reset with vaddr := 0x1234, latch := true } =
    { State.reset with vaddr := 0x12FF } := by decide

/-- V-DATA-1's first read (S4): the old `RBUF` is returned, the byte at 0x0010 buffered. -/
theorem test_rdData_buffered :
    after 0x0700 { State.reset with pat := [(0x010, 0x11), (0x011, 0x22)], rbuf := 0x99, vaddr := 0x0010 } =
      { State.reset with
        pat := [(0x010, 0x11), (0x011, 0x22)], rbuf := 0x11, vaddr := 0x0011, resp := 0x99,
        hooks := [⟨false, 0x0010, wdataOnRead, ⟨false, 0x00⟩⟩] } := by decide
/-- V-DATA-5's second read and V-DATA-7's first: 0x4000 and 0x7FFF are immediate, and 0x7FFF wraps. -/
theorem test_rdData_immediate :
    (after 0x0700 { State.reset with pat := [(0, 0x5A)], vaddr := 0x4000 }).resp = 0x5A ∧
    (after 0x0700 { State.reset with vaddr := 0x7FFF }).vaddr = 0x0000 := by decide

/-- V-DATA-4's first write: 0x3F10 lands in `PAL[0x00]`. -/
theorem test_wrData_alias : after 0x0F01 { State.reset with vaddr := 0x3F10 } =
    { State.reset with pal := [(0, 1)], vaddr := 0x3F11, hooks := [⟨true, 0x3F10, 0x01, ⟨false, 0x00⟩⟩] } := by decide
/-- V-DATA-3's write is dropped; a claimed write changes no bank (V-RTR-13). -/
theorem test_wrData_lost : after 0x0FAB { State.reset with vaddr := 0x2000 } =
      { State.reset with vaddr := 0x2001, hooks := [⟨true, 0x2000, 0xAB, ⟨false, 0x00⟩⟩] } ∧
    after 0x0F44 { State.reset with vaddr := 0x0005, cart := [⟨true, 0x00⟩] } =
      { State.reset with vaddr := 0x0006, hooks := [⟨true, 0x0005, 0x44, ⟨true, 0x00⟩⟩] } := by decide

/-- V-TICK-8: the TICK that starts at (241, 1) with `CTRL[7] = 1`. -/
theorem test_tick_vblank : after 0x1000 { State.reset with scanline := 241, cycle := 1, ctrl := 0x80 } =
    { State.reset with scanline := 241, cycle := 2, ctrl := 0x80, vblank := true, irq := true, ticks := 1 } := by decide
/-- V-TICK-12 (the frame ends) and V-TICK-17 (the clear at (−1, 1) leaves `IRQ`). -/
theorem test_tick_frame : after 0x1000 { State.reset with scanline := 260, cycle := 340, vblank := true } =
      { State.reset with scanline := -1, cycle := 0, vblank := true, ticks := 1, resp := 1 } ∧
    after 0x1000 { State.reset with cycle := 1, vblank := true, irq := true } =
      { State.reset with cycle := 2, irq := true, ticks := 1 } := by decide
/-- V-ACK-1. -/
theorem test_irqAck : after 0x2000 { State.reset with irq := true, vblank := true } =
    { State.reset with vblank := true } := by decide

/-- The palette of V-COL, the cells its vectors read. -/
def colStart : State := { State.reset with pal := [(0x00, 0x50), (0x01, 0x41), (0x04, 0x54), (0x0C, 0x5C), (0x1F, 0x5F)] }

/-- V-COL-3: index 0 of palette 1 is its own cell. -/
theorem test_color_own_cell : (after 0x3004 colStart).resp = rgba (Config.palette 0x14) := rfl
/-- V-COL-7: 0x3F1C is `PAL[0x0C]`, after the hook was offered 0x3F1C (V-COL-10). -/
theorem test_color_alias : (after 0x301C colStart).resp = rgba (Config.palette 0x1C) ∧
    (after 0x301C colStart).hooks = [⟨false, 0x3F1C, wdataOnRead, ⟨false, 0x00⟩⟩] := ⟨rfl, by decide⟩

/-- V-DEC-2: the first ten calls of `DECODE 1, 0` from reset. -/
theorem test_decode_row_calls : ((decodeRow 1 0 State.reset ⟨0, 0, 0⟩).hooks.map HookCall.addr).reverse =
    [0x1000, 0x1008, 0x3F00, 0x3F00, 0x3F00, 0x3F00, 0x3F00, 0x3F00, 0x3F00, 0x3F00] := by decide

/-- Program P4's memory. -/
def p4 : State :=
  { State.reset with pat := [(0x10, 0x41), (0x17, 0xFF), (0x18, 0xC2)], pal := [(4, 0x0F), (5, 0x16), (6, 0x2A), (7, 0x30)] }

/-- P4's row 0 of tile 1: the palette cells of pixels (8, 0) to (15, 0). -/
theorem test_decode_row_pixels : ((decodeRow 0 1 p4 ⟨0, 1, 0⟩).hooks.map HookCall.addr).reverse =
    [0x0010, 0x0018, 0x3F06, 0x3F07, 0x3F04, 0x3F04, 0x3F04, 0x3F04, 0x3F06, 0x3F05] := by decide

/-- P4: pixel (9, 0) is `P[0x30]`, its four bytes at 36 to 39 (V-DEC-5). -/
theorem test_decode_row_bytes : (decodeRow 0 1 p4 ⟨0, 1, 0⟩).diag.read 36 = (Config.palette 0x30).r ∧
    (decodeRow 0 1 p4 ⟨0, 1, 0⟩).diag.read 39 = 0xFF := by
  rw [decodeRow_eq]
  have h : ∀ c < 4, (rowDiag 0 1 p4 p4.cart p4.diag ⟨0, 1, 0⟩).read (36 + c) = pixelByte (rgba (Config.palette 0x30)) c :=
    fun c hc => read_rowDiag_self (m := p4.diag) Memory.wf_nil 0 1 p4 p4.cart ⟨0, 1, 0⟩ (col := 1) (by decide) hc
  have hp := pixelByte_rgba (Config.palette 0x30)
  exact ⟨(h 0 (by decide)).trans hp.1, (h 3 (by decide)).trans hp.2.2.2⟩

/-- V-DEC-4: the last tile row's planes. -/
theorem test_decode_last_row : lowPlaneAddr 1 ⟨15, 15, 7⟩ = 0x1FF7 ∧ highPlaneAddr 1 ⟨15, 15, 7⟩ = 0x1FFF ∧
    lowPlaneAddr 0 ⟨1, 0, 0⟩ = 0x0100 ∧ tileRows.length = 2048 := ⟨by decide, by decide, by decide, length_tileRows⟩
/-- V-DEC-5: the byte index of a pixel. -/
theorem test_pixelIndex : pixelIndex 8 0 = 32 ∧ pixelIndex 8 7 = 3616 ∧ pixelIndex 127 127 = 65532 := by decide
/-- V-UNP-5, V-UNP-7, V-UNP-8. -/
theorem test_unpackRow : unpackRow 0x80 0x01 = [1, 0, 0, 0, 0, 0, 0, 2] ∧ unpackRow 0x41 0xC2 = [2, 3, 0, 0, 0, 0, 2, 1] ∧
    unpackRow 0x0F 0x33 = [0, 0, 2, 2, 1, 1, 3, 3] := by decide

/-- V-RTR-3, V-RTR-5, V-RTR-6, V-RTR-8: where a router write lands. -/
theorem test_router_write : (memWrite 0x1000 0x14 State.reset).pat = [(0x1000, 0x14)] ∧
    (memWrite 0xFF10 0x16 State.reset).pal = [(0, 0x16)] ∧ (memWrite 0x3F30 0x17 State.reset).pal = [(0, 0x17)] ∧
    (memWrite 0x2000 0x19 State.reset).pat = [] := by decide
/-- V-RTR-11, V-RTR-12: where a router read comes from. -/
theorem test_router_read : memReadValue 0xBF04 { State.reset with pal := [(4, 0x2B)] } = 0x2B ∧
    memReadValue 0x3F00 { State.reset with pal := [(0, 0x0F)], cart := [⟨true, 0x30⟩] } = 0x30 := by decide
/-- Writing 0x00 removes the cell, so equal banks are equal lists (assumption log 6). -/
theorem test_memory_canonical : Memory.write [(3, 0x01)] 3 0x00 = [] ∧ Memory.write [(3, 0x01)] 2 0x05 = [(2, 0x05), (3, 0x01)] := by
  decide

/-- V-ENC-17: `cmd_valid = 0` is idle. -/
theorem test_idle : step { nopStart with edges := [⟨false, false, 0x0880⟩] } = .next nopStart := rfl
/-- V-RST-1: `rst` wins over a valid command. -/
theorem test_reset : step { nopStart with edges := [⟨true, true, 0x0880⟩] } = .next State.reset := rfl

/-! ### Witnesses: for each statement with hypotheses, states and operands that meet them, clause by clause -/

theorem witness_DecodeOfEncodeIsIdentity : (Instr.wrAddr 0xFF).wf = true ∧ (Instr.color 3 7).wf = true := by decide

/-- Words at the edges of the classes: each premise of the three clauses. -/
theorem witness_OpcodeRowsPartitionTheWords : decode 0x0000 = .ok .rdCtrl ∧ decode 0x4FFF = .ok (.decode 1 7) ∧
    decode 0x5000 = .error .reservedClass ∧ decode 0xFFFF = .error .reservedClass := by decide

theorem witness_StepRunsTheDecodedOperation :
    (∃ (s : State) (rest : List Edge), s.edges = ⟨false, true, 0x0E21⟩ :: rest ∧ decode 0x0E21 = .ok (.wrAddr 0x21) ∧
      (Instr.wrAddr 0x21).wf = true) ∧ decodeTableWord 16 0x1000 = some .tick :=
  ⟨⟨{ State.reset with edges := [⟨false, true, 0x0E21⟩] }, [], by decide⟩, by decide⟩

/-- No command, and the first and the last reserved word; and no pending input. -/
theorem witness_IdleStepsChangeNothing :
    (∃ (s : State) (e : Edge) (rest : List Edge), s.edges = e :: rest ∧ e.rst = false ∧ e.cmdValid = false) ∧
    (∀ w ∈ [(0x5000 : Cmd), 0xFFFF], ∃ (s : State) (e : Edge) (rest : List Edge),
      s.edges = e :: rest ∧ e.rst = false ∧ e.cmd = w ∧ decode e.cmd = .error .reservedClass) ∧
    State.reset.edges = [] := by
  refine ⟨⟨{ State.reset with edges := [idleEdge] }, idleEdge, [], by decide⟩, ?_, rfl⟩
  intro w hw
  refine ⟨{ State.reset with edges := [⟨false, true, w⟩] }, ⟨false, true, w⟩, [], rfl, rfl, rfl, ?_⟩
  simp only [List.mem_cons, List.not_mem_nil, or_false] at hw
  rcases hw with rfl | rfl <;> decide

theorem witness_ResetEdgeWinsOverTheCommand :
    ∃ (s : State) (rest : List Edge), s.edges = ⟨true, true, 0x0880⟩ :: rest :=
  ⟨{ State.reset with edges := [⟨true, true, 0x0880⟩] }, [], rfl⟩

theorem witness_WrMaskStoresAByteNothingReads :
    ∃ t, exec .tick State.reset = .next t ∧ ∀ d, Instr.tick ≠ .wrMask d := ⟨_, rfl, by simp⟩

/-- Both values of `LATCH`. -/
theorem witness_WrAddrStoresOneHalf : State.reset.latch = false ∧ nopStart.latch = true := by decide

theorem witness_AddressPairComposesVaddr :
    ∃ s : State, s.latch = false ∧ s.edges = [commandEdge (.wrAddr 0xBF), commandEdge (.wrAddr 0x10)] :=
  ⟨{ State.reset with edges := [commandEdge (.wrAddr 0xBF), commandEdge (.wrAddr 0x10)] }, rfl, rfl⟩

theorem witness_StatusReadSplitsAnAddressPair :
    ∃ s : State, s.edges = [commandEdge (.wrAddr 0x12), commandEdge .rdStatus, commandEdge (.wrAddr 0x34),
      commandEdge (.wrAddr 0x56)] :=
  ⟨{ State.reset with edges := [commandEdge (.wrAddr 0x12), commandEdge .rdStatus, commandEdge (.wrAddr 0x34),
      commandEdge (.wrAddr 0x56)] }, rfl⟩

/-- Clause 1 with three writes, clause 2 by both operations that write `LATCH`. -/
theorem witness_LatchAlternatesUnderWrAddr :
    (∃ s : State, s.edges = [0x21, 0x08, 0x3F].map (fun d : Byte => commandEdge (.wrAddr d)) ++ [idleEdge]) ∧
    (∃ t, exec .rdStatus nopStart = .next t ∧ t.latch ≠ nopStart.latch) ∧
    (∃ t, exec (.wrAddr 0x21) State.reset = .next t ∧ t.latch ≠ State.reset.latch) :=
  ⟨⟨{ State.reset with edges := [0x21, 0x08, 0x3F].map (fun d : Byte => commandEdge (.wrAddr d)) ++ [idleEdge] }, rfl⟩,
    ⟨_, rfl, by decide⟩, ⟨_, rfl, by decide⟩⟩

/-- Each of the four clauses, at both ends of its address range. -/
theorem witness_WrDataWritesThroughTheRouterAndSteps :
    State.reset.pat.wf ∧ State.reset.pal.wf ∧
    (∃ s : State, s.pat.wf ∧ s.pal.wf ∧ (s.cart.headD unclaimed).claim = true) ∧
    (∀ a ∈ [0x0000, 0x1FFF, 0x4000, 0x5FFF], ∃ s : State, s.pat.wf ∧ s.pal.wf ∧ s.vaddr.toNat = a ∧
      (s.cart.headD unclaimed).claim = false ∧ s.vaddr.toNat % 0x4000 ≤ 0x1FFF) ∧
    (∀ a ∈ [0x2000, 0x3EFF, 0x6000, 0x7EFF], ∃ s : State, s.pat.wf ∧ s.pal.wf ∧ s.vaddr.toNat = a ∧
      (s.cart.headD unclaimed).claim = false ∧ 0x2000 ≤ s.vaddr.toNat % 0x4000 ∧ s.vaddr.toNat % 0x4000 ≤ 0x3EFF) ∧
    (∀ a ∈ [0x3F00, 0x3FFF, 0x7F00, 0x7FFF], ∃ s : State, s.pat.wf ∧ s.pal.wf ∧ s.vaddr.toNat = a ∧
      (s.cart.headD unclaimed).claim = false ∧ 0x3F00 ≤ s.vaddr.toNat % 0x4000) := by
  refine ⟨Memory.wf_nil, Memory.wf_nil,
    ⟨{ State.reset with cart := [⟨true, 0x00⟩] }, Memory.wf_nil, Memory.wf_nil, rfl⟩, ?_, ?_, ?_⟩ <;> intro a ha <;>
    refine ⟨{ State.reset with vaddr := BitVec.ofNat 15 a }, Memory.wf_nil, Memory.wf_nil, ?_⟩ <;> revert a <;> decide

/-- The range at both ends, in both halves of the 15 bits. -/
theorem witness_NameTableAccessesAreLost :
    ∀ a ∈ [0x2000, 0x3EFF, 0x6000, 0x7EFF], ∃ s : State, s.vaddr.toNat = a ∧ 0x2000 ≤ s.vaddr.toNat % 0x4000 ∧
      s.vaddr.toNat % 0x4000 ≤ 0x3EFF ∧ (s.cart.headD unclaimed).claim = false := by
  intro a ha
  refine ⟨{ State.reset with vaddr := BitVec.ofNat 15 a }, ?_⟩
  revert a; decide

/-- Addresses where the four clauses meet: 0x3EFE is the last of the second, 0x3EFF the third, 0x3F00 the first of the
fourth. -/
theorem witness_ReadDelayOfTheDataPort : ∀ a ∈ [(0x0000 : VramAddr), 0x3EFE, 0x3EFF, 0x3F00, 0x7FFF], ∃ s : State,
    s.vaddr = a ∧ s.NoCart ∧ s.edges = [commandEdge .rdData, commandEdge .rdData] :=
  fun a _ => ⟨{ State.reset with vaddr := a, edges := [commandEdge .rdData, commandEdge .rdData] }, rfl, rfl, rfl⟩

/-- An operation for each of the inner clauses. -/
theorem witness_PortOperationsLeaveTheRestAlone :
    ∀ i ∈ [Instr.rdStatus, .rdData, .wrData 0x2A, .wrAddr 0x3F], (∃ t, exec i nopStart = .next t) ∧
      i ≠ .tick ∧ i ≠ .irqAck ∧ (∀ ci ps, i ≠ .color ci ps) ∧ (∀ ti ps, i ≠ .decode ti ps) := by
  intro i hi
  simp only [List.mem_cons, List.not_mem_nil, or_false] at hi
  rcases hi with rfl | rfl | rfl | rfl <;> exact ⟨⟨_, rfl⟩, by simp⟩

/-- Each row of the map at both ends. -/
theorem witness_UnclaimedAccessesFollowTheMap :
    (nextAnswer State.reset).claim = false ∧ State.reset.pat.wf ∧ State.reset.pal.wf ∧
    (∀ a ∈ [0x0000, 0x0FFF, 0x4FFF], (BitVec.ofNat 16 a).toNat % 0x4000 ≤ 0x0FFF) ∧
    (∀ a ∈ [0x1000, 0x1FFF], 0x1000 ≤ (BitVec.ofNat 16 a).toNat % 0x4000 ∧ (BitVec.ofNat 16 a).toNat % 0x4000 ≤ 0x1FFF) ∧
    (∀ a ∈ [0x2000, 0x3EFF], 0x2000 ≤ (BitVec.ofNat 16 a).toNat % 0x4000 ∧ (BitVec.ofNat 16 a).toNat % 0x4000 ≤ 0x3EFF) ∧
    (∀ a ∈ [0x3F00, 0x3FFF, 0xFFFF], 0x3F00 ≤ (BitVec.ofNat 16 a).toNat % 0x4000) :=
  ⟨rfl, Memory.wf_nil, Memory.wf_nil, by decide⟩

theorem witness_PaletteAliasIsObservableBothWays : State.reset.NoCart ∧ State.reset.pal.wf := ⟨rfl, Memory.wf_nil⟩

theorem witness_TheCartridgeHasFirstRefusal : ∃ s : State, (s.cart.headD unclaimed).claim = true :=
  ⟨{ State.reset with cart := [⟨true, 0x30⟩] }, rfl⟩

theorem witness_RouterReadAfterWrite : State.reset.pat.wf ∧ State.reset.pal.wf ∧
    (nextAnswer State.reset).claim = false ∧ (nextAnswer (memWrite 0x3F10 0x21 State.reset)).claim = false :=
  ⟨Memory.wf_nil, Memory.wf_nil, rfl, by decide⟩

theorem witness_RouterWritesOneCell :
    State.reset.pat.wf ∧ State.reset.pal.wf ∧ (nextAnswer State.reset).claim = false :=
  ⟨Memory.wf_nil, Memory.wf_nil, rfl⟩

/-- A state that has any number of TICKs to come. -/
def ticking (n : Nat) (rest : List Edge) : State :=
  { State.reset with edges := List.replicate n (commandEdge .tick) ++ rest }

/-- No TICK, and both sides of the end of a frame. -/
theorem witness_PositionAfterManyTicks : ∀ n ∈ [0, 342, 89341, 89342, 178684],
    (ticking n []).scanline = -1 ∧ (ticking n []).cycle = 0 ∧
      (ticking n []).edges = List.replicate n (commandEdge .tick) ++ [] := fun _ _ => ⟨rfl, rfl, rfl⟩

/-- Both sides of each edge of the window: 82523 and 82524, 89343 and 89344. -/
theorem witness_VblankWindowAfterManyTicks : ∀ n ∈ [82523, 82524, 89343, 89344],
    (ticking n []).scanline = -1 ∧ (ticking n []).cycle = 0 ∧ (ticking n []).vblank = false ∧
      (ticking n []).edges = List.replicate n (commandEdge .tick) ++ [] := fun _ _ => ⟨rfl, rfl, rfl, rfl⟩

theorem reset_inv : State.reset.Inv := by
  constructor <;> first | exact Memory.wf_nil | exact Memory.below_nil _ | simp [State.reset, aliasCells]

/-- The position alone changes. -/
theorem inv_at {line : Int} {cycle : Nat} (h1 : -1 ≤ line) (h2 : line ≤ 260) (h3 : cycle ≤ 340) (es : List Edge) :
    ({ State.reset with scanline := line, cycle := cycle, edges := es } : State).Inv :=
  { reset_inv with scanline_ge := h1, scanline_le := h2, cycle_le := h3 }

/-- The first and the last position of a frame. -/
theorem witness_FrameEndsWithFrameDone :
    (∃ s : State, s.Inv ∧ s.edges = traceEdges s .frame ∧ s.scanline = -1 ∧ s.cycle = 0) ∧
    (∃ s : State, s.Inv ∧ s.edges = traceEdges s .frame ∧ s.scanline = 260 ∧ s.cycle = 340) :=
  ⟨⟨_, inv_at (line := -1) (cycle := 0) (by decide) (by decide) (by decide) (traceEdges State.reset .frame), rfl, rfl, rfl⟩,
    ⟨_, inv_at (line := 260) (cycle := 340) (by decide) (by decide) (by decide)
      (traceEdges { State.reset with scanline := 260, cycle := 340 } .frame), rfl, rfl, rfl⟩⟩

/-- The state in which a TICK sets `VBLANK` and raises `IRQ`. -/
def vblankStart : State := { State.reset with scanline := 241, cycle := 1, ctrl := 0x80, edges := [⟨false, true, 0x1000⟩] }

theorem witness_OnlyTheVblankTickRaisesIrq :
    (∃ t, step vblankStart = .next t ∧ vblankStart.irq = false ∧ t.irq = true) ∧
    vblankStart.scanline = 241 ∧ vblankStart.cycle = 1 ∧ vblankStart.ctrl.getLsbD 7 = true ∧
    vblankStart.edges = [⟨false, true, 0x1000⟩] ∧ decode 0x1000 = .ok .tick :=
  ⟨⟨_, rfl, rfl, rfl⟩, by decide⟩

/-- By IRQ_ACK and by RESET. -/
theorem witness_OnlyIrqAckAndResetClearIrq : ∀ e ∈ [commandEdge .irqAck, resetEdge],
    ∃ s t : State, s.edges = [e] ∧ step s = .next t ∧ s.irq = true ∧ t.irq = false := by
  intro e he
  simp only [List.mem_cons, List.not_mem_nil, or_false] at he
  rcases he with rfl | rfl
  · exact ⟨{ State.reset with irq := true, edges := [commandEdge .irqAck] }, _, rfl, rfl, rfl, rfl⟩
  · exact ⟨{ State.reset with irq := true, edges := [resetEdge] }, _, rfl, rfl, rfl, rfl⟩

theorem witness_RaisingIrqChangesOneBit : vblankStart.scanline = 241 ∧ vblankStart.cycle = 1 ∧
    (0x80 : Byte).getLsbD 7 = true ∧ (0x7F : Byte).getLsbD 7 = false := by decide

theorem witness_WrCtrlNeverRaisesIrq :
    ∃ t, exec .tick vblankStart = .next t ∧ vblankStart.irq = false ∧ t.irq = true := ⟨_, rfl, rfl, rfl⟩

/-- Clause 1 by a TICK and by RESET; clause 2 at the first and the last position. -/
theorem witness_OnlyTickAndResetMoveThePosition :
    (∃ t, step vblankStart = .next t ∧ t.cycle ≠ vblankStart.cycle) ∧
    (∃ t, step { vblankStart with edges := [resetEdge] } = .next t ∧ t.scanline ≠ vblankStart.scanline) ∧
    (∃ s t : State, exec .tick s = .next t ∧ s.scanline = -1 ∧ s.cycle = 0) ∧
    (∃ s t : State, exec .tick s = .next t ∧ s.scanline = 260 ∧ s.cycle = 340) :=
  ⟨⟨_, rfl, by decide⟩, ⟨_, rfl, by decide⟩, ⟨State.reset, _, rfl, rfl, rfl⟩,
    ⟨{ State.reset with scanline := 260, cycle := 340 }, _, rfl, rfl, rfl⟩⟩

theorem witness_ColorZeroSharesTheAliasedCell :
    colStart.NoCart ∧ (0 : BitVec 3).toNat < 4 ∧ (3 : BitVec 3).toNat < 4 := ⟨rfl, by decide⟩

/-- A call number, and the first and the last byte of a view. -/
theorem witness_DecodeWritesOneViewAlone : ∃ (t : State) (calls : List HookCall), exec (.decode 0 1) p4 = .next t ∧
    t.hooks = calls.reverse ++ p4.hooks ∧ 20479 < calls.length ∧ 0 < 65536 ∧ 65535 < 65536 :=
  ⟨_, tableCalls 0 1 p4 tileRows p4.cart, exec_decode_eq 0 1 p4, by dsimp only, by simp, by decide, by decide⟩

/-- The first and the last tile row and column, and a call for each. -/
theorem witness_DecodeReadsInLoopOrder : ∀ j ∈ [0, 2047], ∀ col ∈ [0, 7], j < 2048 ∧ col < 8 ∧
    ∃ c, (tableCalls 0 1 p4 tileRows p4.cart)[10 * j + (2 + col)]? = some c := by
  intro j hj col hcol
  have h1 : j < 2048 := by revert j; decide
  have h2 : col < 8 := by revert col; decide
  exact ⟨h1, h2, _, (tableCalls_getElem? (tileRows_getElem? h1) (by omega)).trans (rowCalls_column _ _ _ _ _ h2)⟩

/-- The answers of a cartridge that claims every read with 0x55. -/
theorem steady_claiming {s : State} {n : Nat} (hn : 20480 ≤ n) (hc : s.cart = List.replicate n ⟨true, 0x55⟩) :
    SteadyReads (fun _ => some 0x55) (tableCalls 0 1 s tileRows s.cart) := by
  intro c h
  obtain ⟨k, hk⟩ := List.getElem?_of_mem h
  have hlt := (List.getElem?_eq_some_iff.1 hk).1
  rw [length_tableCalls, length_tileRows] at hlt
  obtain ⟨h1, h2⟩ := tableCalls_answer hk
  exact ⟨h1, by rw [h2, hc, List.getD_eq_getElem?_getD, List.getElem?_replicate_of_lt (by omega)]; rfl⟩

/-- No cartridge answers the same for every address. -/
theorem steady_noCart {s : State} (h : s.NoCart) : SteadyReads (fun _ => none) (tableCalls 0 1 s tileRows s.cart) := by
  intro c hc
  obtain ⟨h1, n, h2⟩ := mem_tableCalls hc
  rw [show s.cart = [] from h] at h2
  exact ⟨h1, by rw [h2]; rfl⟩

/-- No cartridge, and a cartridge that claims every read with 0x55; pixels (0, 0) and (127, 127). -/
theorem witness_DecodedPixelClosedForm :
    (p4.diag.wf ∧ SteadyReads (fun _ => none) (tableCalls 0 1 p4 tileRows p4.cart)) ∧
    (∃ s : State, s.diag.wf ∧ SteadyReads (fun _ => some 0x55) (tableCalls 0 1 s tileRows s.cart)) ∧
    0 < 128 ∧ 127 < 128 :=
  ⟨⟨Memory.wf_nil, steady_noCart rfl⟩,
    ⟨{ p4 with cart := List.replicate 20480 ⟨true, 0x55⟩ }, Memory.wf_nil, steady_claiming (Nat.le_refl _) rfl⟩,
    by decide, by decide⟩

/-- A cartridge that claims the first read alone; pixels (0, 0) and (127, 127). -/
theorem witness_DecodedPixelFromItsOwnCall :
    ∃ s : State, s.cart = [⟨true, 0x55⟩] ∧ s.diag.wf ∧ 0 < 128 ∧ 127 < 128 :=
  ⟨{ p4 with cart := [⟨true, 0x55⟩] }, rfl, Memory.wf_nil, by decide, by decide⟩

/-- Two states that differ in a register, and a state with the answers of two DECODE one after the other. -/
theorem witness_DecodeRepeatsUnderASteadyCartridge :
    (∃ s s' : State, s ≠ s' ∧ s.diag.wf ∧ s'.diag.wf ∧ s'.pat = s.pat ∧ s'.pal = s.pal ∧
      SteadyReads (fun _ => some 0x55) (tableCalls 0 1 s tileRows s.cart) ∧
      SteadyReads (fun _ => some 0x55) (tableCalls 0 1 s' tileRows s'.cart)) ∧
    (∃ s t : State, s.diag.wf ∧ exec (.decode 0 1) s = .next t ∧
      SteadyReads (fun _ => some 0x55) (tableCalls 0 1 s tileRows s.cart) ∧
      SteadyReads (fun _ => some 0x55) (tableCalls 0 1 t tileRows t.cart)) := by
  constructor
  · refine ⟨{ p4 with cart := List.replicate 20480 ⟨true, 0x55⟩ },
      { p4 with cart := List.replicate 20480 ⟨true, 0x55⟩, ctrl := 0xFF }, ?_, Memory.wf_nil, Memory.wf_nil, rfl, rfl,
      steady_claiming (Nat.le_refl _) rfl, steady_claiming (Nat.le_refl _) rfl⟩
    intro h
    exact absurd (congrArg State.ctrl h) (by decide)
  · obtain ⟨s, hs, hd⟩ : ∃ s : State, s.cart = List.replicate 40960 ⟨true, 0x55⟩ ∧ s.diag.wf :=
      ⟨{ p4 with cart := List.replicate 40960 ⟨true, 0x55⟩ }, rfl, Memory.wf_nil⟩
    refine ⟨s, _, hd, exec_decode_eq 0 1 s, steady_claiming (by decide) hs, steady_claiming (Nat.le_refl _) ?_⟩
    dsimp only
    rw [hs, List.drop_replicate]

theorem witness_DecodeIsIdempotent : p4.NoCart ∧ nopStart.NoCart ∧ p4.diag.wf ∧
    ({ p4 with ctrl := 0xFF } : State).pat = p4.pat ∧ ({ p4 with ctrl := 0xFF } : State).pal = p4.pal ∧ 65535 < 65536 :=
  ⟨rfl, rfl, Memory.wf_nil, rfl, rfl, by decide⟩

theorem witness_DecoderReadsNoRegister : ∃ s s' : State, s ≠ s' ∧ s'.pat = s.pat ∧ s'.pal = s.pal ∧ s'.diag = s.diag ∧
    s'.cart = s.cart := ⟨State.reset, nopStart, by decide, rfl, rfl, rfl, rfl⟩

/-- By RESET of a view that is not empty, and by DECODE from reset, whose first alpha byte becomes 0xFF. -/
theorem witness_OnlyDecodeAndResetWriteDiag :
    (∃ s t : State, step s = .next t ∧ t.diag ≠ s.diag ∧ s.edges = [resetEdge]) ∧
    (∃ s t : State, step s = .next t ∧ t.diag ≠ s.diag ∧ s.edges = [commandEdge (.decode 0 0)]) := by
  refine ⟨⟨{ State.reset with diag := [(3, 0xFF)], edges := [resetEdge] }, _, rfl, by decide, rfl⟩,
    ⟨{ State.reset with edges := [commandEdge (.decode 0 0)] }, _, exec_decode_eq 0 0 State.reset, ?_, rfl⟩⟩
  intro h
  dsimp only at h
  have hr := read_tableDiag_self 0 0 State.reset (col := 0) (c := 3) (n := 0) (start := 0) (len := 2048)
    (cart := State.reset.cart) (m := State.reset.diag) (by decide) (by decide) Memory.wf_nil (by decide) (by decide)
  rw [← List.range_eq_range', ← tileRows_eq, h, rowPixel, (pixelByte_rgba _).2.2.2] at hr
  exact absurd hr (by decide)

theorem witness_StepKeepsTheInvariant : State.reset.Inv ∧ ∃ t, step State.reset = .next t := ⟨reset_inv, _, rfl⟩

theorem witness_OnlyNmiEnableOfCtrlIsRead : ∃ t, exec .tick vblankStart = .next t ∧
    (0xFF : Byte).getLsbD 7 = vblankStart.ctrl.getLsbD 7 ∧ ∀ d, Instr.tick ≠ .wrCtrl d := ⟨_, rfl, by decide, by simp⟩

theorem witness_NameTableBanksAreUnreachable : ∃ t, exec (.wrData 0x2A) nopStart = .next t := ⟨_, rfl⟩

/-- A cartridge that counts its calls and claims every other read. -/
def countingCartridge : Oracle where
  S := Nat
  read n a := (n + 1, if n % 2 = 0 then some (a.setWidth 8) else none)
  write n _ _ := (n + 1, true)

theorem witness_EveryCartridgeOracleIsCovered :
    countingCartridge.Gives (0 : Nat) [⟨false, 0x0007, wdataOnRead, ⟨true, 0x07⟩⟩, ⟨false, 0x0007, wdataOnRead, ⟨false, 0x00⟩⟩] :=
  ⟨rfl, rfl, trivial⟩

theorem witness_OutputsShowTheState : State.reset.Inv := reset_inv

/-- The operands at both ends of their ranges, in and out of the name-table range. -/
theorem witness_PokeStoresTheByte : ∀ p ∈ [(0x0000, 0), (0x2000, 255), (0x3F00, 255), (0xFFFF, 255)],
    ∃ s : State, (TraceOp.poke p.1 p.2).wf = true ∧ s.NoCart ∧ s.latch = false ∧ s.pat.wf ∧ s.pal.wf ∧
      s.edges = traceEdges s (.poke p.1 p.2) ++ [] := by
  intro p hp
  refine ⟨{ State.reset with edges := traceEdges State.reset (.poke p.1 p.2) ++ [] }, ?_, rfl, rfl, Memory.wf_nil,
    Memory.wf_nil, rfl⟩
  revert p; decide

/-- The operand at both ends of its range and on both sides of the hole at 0x3EFF. -/
theorem witness_PeekReturnsTheByte : ∀ a ∈ [0x0000, 0x3EFE, 0x3F00, 0xFFFF], ∃ s : State, (TraceOp.peek a).wf = true ∧
    s.NoCart ∧ s.latch = false ∧ s.edges = traceEdges s (.peek a) ++ [] := by
  intro a ha
  refine ⟨{ State.reset with edges := traceEdges State.reset (.peek a) ++ [] }, ?_, rfl, rfl, rfl⟩
  revert a; decide

end Sys2Proof.Tests
end

section
/-! SUPPORT. Router accesses the cartridge does not claim, by the target of the map (spec 20_memory.md R46, R47, R50 to R54). -/

namespace Sys2Proof.Machine

/-- What a bank reads as after a write, at every key (R56, R57). -/
theorem Memory.read_write {m : Memory} (hm : m.wf) (k : Nat) (v : Byte) (k' : Nat) :
    (m.write k v).read k' = if k' = k then v else m.read k' := by
  split_ifs with h
  · rw [h, Memory.read_write_self hm]
  · exact Memory.read_write_other m v h

/-! ### The map at a router address (R42, R54) -/

/-- Masking keeps the low bits of the address, as many as the mask lets through. -/
theorem extractLsb'_maskAddr {n : Nat} (hn : n ≤ 14) (a : RouterAddr) : (maskAddr a).extractLsb' 0 n = a.setWidth n := by
  apply BitVec.eq_of_toNat_eq
  simp [toNat_maskAddr, BitVec.extractLsb'_toNat, Nat.mod_mod_of_dvd _ (Nat.pow_dvd_pow 2 hn : 2 ^ n ∣ 0x4000)]

/-- The pattern bank is the masked address over 0x1000, the offset the address's low 12 bits (R50). -/
theorem route_maskAddr_pattern {a : RouterAddr} (b : BitVec 1) (h : a.toNat % 0x4000 / 0x1000 = b.toNat) :
    route (maskAddr a) = .pattern b (a.setWidth 12) := by
  have hb := b.isLt
  have bank : (maskAddr a).extractLsb' 12 1 = b := by
    apply BitVec.eq_of_toNat_eq
    rw [BitVec.extractLsb'_toNat, toNat_maskAddr, Nat.shiftRight_eq_div_pow]
    omega
  rw [route_pattern (by rw [toNat_maskAddr]; omega), bank, extractLsb'_maskAddr (by decide)]

theorem route_maskAddr_nameTable {a : RouterAddr} (h1 : 0x2000 ≤ a.toNat % 0x4000) (h2 : a.toNat % 0x4000 ≤ 0x3EFF) :
    route (maskAddr a) = .nameTable :=
  route_nameTable (by rwa [toNat_maskAddr]) (by rwa [toNat_maskAddr])

/-- The palette index is the alias of the address's low 5 bits (R52, R53). -/
theorem route_maskAddr_palette {a : RouterAddr} (h : 0x3F00 ≤ a.toNat % 0x4000) :
    route (maskAddr a) = .palette (palidx (a.setWidth 5)) := by
  rw [route_palette (by rwa [toNat_maskAddr]), extractLsb'_maskAddr (by decide)]

/-! ### Unclaimed accesses -/

theorem memReadValue_unclaimed {s : State} (h : (nextAnswer s).claim = false) (a : RouterAddr) :
    memReadValue a s = bankRead s (maskAddr a) := by
  simp [memReadValue, h]

section
variable {s : State} {a : RouterAddr} (hc : (nextAnswer s).claim = false)
include hc

/-- An unclaimed access in the pattern range reads and writes one byte of `PAT` and leaves `PAL` (R50). -/
theorem unclaimed_pattern {b : BitVec 1} {o : BitVec 12} (hp : s.pat.wf) (hr : route (maskAddr a) = .pattern b o)
    (v : Byte) :
    memReadValue a s = s.pat.read (patKey b o) ∧
    (∀ k, (memWrite a v s).pat.read k = if k = patKey b o then v else s.pat.read k) ∧
    (memWrite a v s).pal = s.pal := by
  refine ⟨?_, fun k => ?_, ?_⟩
  · simp [memReadValue_unclaimed hc, bankRead, hr]
  · simp [memWrite_eq, patAfter, hc, hr, Memory.read_write hp]
  · simp [memWrite_eq, palAfter, hc, hr]

/-- An unclaimed access in the name-table range reads 0x00 and writes nothing (R51). -/
theorem unclaimed_nameTable (hr : route (maskAddr a) = .nameTable) (v : Byte) :
    memReadValue a s = 0x00 ∧ (memWrite a v s).pat = s.pat ∧ (memWrite a v s).pal = s.pal := by
  refine ⟨?_, ?_, ?_⟩
  · simp [memReadValue_unclaimed hc, bankRead, hr]
  · simp [memWrite_eq, patAfter, hc, hr]
  · simp [memWrite_eq, palAfter, hc, hr]

/-- An unclaimed access in the palette range reads and writes one byte of `PAL` and leaves `PAT` (R52). -/
theorem unclaimed_palette {i : BitVec 5} (hq : s.pal.wf) (hr : route (maskAddr a) = .palette i) (v : Byte) :
    memReadValue a s = s.pal.read i.toNat ∧
    (∀ k, (memWrite a v s).pal.read k = if k = i.toNat then v else s.pal.read k) ∧
    (memWrite a v s).pat = s.pat := by
  refine ⟨?_, fun k => ?_, ?_⟩
  · simp [memReadValue_unclaimed hc, bankRead, hr]
  · simp [memWrite_eq, palAfter, hc, hr, Memory.read_write hq]
  · simp [memWrite_eq, patAfter, hc, hr]

end

/-- Settles O25: each row of the map is its range's target, and each target has its rule for an unclaimed access. -/
theorem unclaimedAccessesFollowTheMap : Obligations.UnclaimedAccessesFollowTheMap := by
  intro s a v hc hp hq
  refine ⟨fun h => ?_, fun h1 h2 => ?_, fun h1 h2 => ?_, fun h => ?_, ?_⟩
  · exact unclaimed_pattern hc hp (route_maskAddr_pattern 0 (show _ = 0 by omega)) v
  · exact unclaimed_pattern hc hp (route_maskAddr_pattern 1 (show _ = 1 by omega)) v
  · exact unclaimed_nameTable hc (route_maskAddr_nameTable h1 h2) v
  · exact unclaimed_palette hc hq (route_maskAddr_palette h) v
  · omega

/-! ### The palette alias (R53) -/

/-- The alias clears bit 4 of an index whose two low bits are 0. -/
theorem palidx_eq_sub (i : BitVec 5) :
    palidx i = if i.getLsbD 4 = true ∧ i.getLsbD 1 = false ∧ i.getLsbD 0 = false then i - 16 else i := by
  revert i; decide

/-- The alias merges four of the 32 indices into others. -/
theorem card_image_palidx : ((Finset.univ : Finset (Fin 32)).image fun i => palidx (BitVec.ofFin i)).card = 28 := by
  decide

theorem memWrite_noCart {s : State} (h : s.NoCart) (a : RouterAddr) (v : Byte) : (memWrite a v s).NoCart := by
  rw [memWrite_eq]
  exact hookCall_noCart h true (maskAddr a) v

/-- With no cartridge, a byte written at one palette address is read at every palette address with the same aliased
index. -/
theorem memReadValue_memWrite_of_palidx_eq {s : State} (hs : s.NoCart) (hq : s.pal.wf) {a b : RouterAddr}
    (ha : 0x3F00 ≤ a.toNat % 0x4000) (hb : 0x3F00 ≤ b.toNat % 0x4000)
    (hab : palidx (b.setWidth 5) = palidx (a.setWidth 5)) (v : Byte) : memReadValue b (memWrite a v s) = v := by
  have hc : (nextAnswer s).claim = false := by rw [nextAnswer_of_noCart hs, unclaimed]
  obtain ⟨-, hw, -⟩ := unclaimed_palette hc hq (route_maskAddr_palette ha) v
  rw [memReadValue_noCart (memWrite_noCart hs a v), bankRead, route_maskAddr_palette hb]
  simp [hw, hab]

/-- The four pairs of an aliased address and the address it stands for: both in the palette range, equal aliased index. -/
theorem palidx_eq_of_aliasPair {p : RouterAddr × RouterAddr}
    (h : p ∈ [((0x3F10 : RouterAddr), (0x3F00 : RouterAddr)), (0x3F14, 0x3F04), (0x3F18, 0x3F08), (0x3F1C, 0x3F0C)]) :
    0x3F00 ≤ p.1.toNat % 0x4000 ∧ 0x3F00 ≤ p.2.toNat % 0x4000 ∧ palidx (p.1.setWidth 5) = palidx (p.2.setWidth 5) := by
  simp only [List.mem_cons, List.not_mem_nil, or_false] at h
  rcases h with rfl | rfl | rfl | rfl <;> exact ⟨by simp, by simp, by decide⟩

/-- Settles O26: the table is the definition, its form and image are checked on the 32 indices, and the two addresses of a
pair reach the same cell. -/
theorem paletteAliasIsObservableBothWays : Obligations.PaletteAliasIsObservableBothWays := by
  refine ⟨fun i => rfl, palidx_eq_sub, card_image_palidx, palidx_idem, fun s v hs hq p hp => ?_⟩
  obtain ⟨h1, h2, heq⟩ := palidx_eq_of_aliasPair hp
  exact ⟨memReadValue_memWrite_of_palidx_eq hs hq h1 h2 heq.symm v,
    memReadValue_memWrite_of_palidx_eq hs hq h2 h1 heq v⟩

end Sys2Proof.Machine
end

section
/-! SUPPORT. The port writes, said once (spec 30_encoding.md R72, R75; 40_port_operations.md R102 to R117): their words,
what WR_DATA and TICK do in explicit form, and that nothing reads `MASK`. -/

namespace Sys2Proof.Machine

/-! ### The words of the port writes (R72, R75) -/

/-- A port-write word as a number: class 0, the direction bit, the port, the data byte. -/
theorem portWord_write_toNat (p : BitVec 3) (d : Byte) :
    (portWord true p d).toNat = 0x0800 + p.toNat * 0x100 + d.toNat := by
  simp only [portWord, toNat_append_add, BitVec.toNat_ofNat, BitVec.toNat_ofBool, Bool.toNat_true]
  omega

/-- The data byte of a port write is what the word adds to that of the byte 0. -/
theorem portWord_write_eq_or (p : BitVec 3) (d : Byte) :
    portWord true p d = portWord true p 0 ||| d.setWidth 16 := by
  apply BitVec.eq_of_toNat_eq
  rw [BitVec.toNat_or, BitVec.toNat_setWidth_of_le (by decide), portWord, portWord, BitVec.toNat_append,
    BitVec.toNat_append _ 0]
  simp only [BitVec.ofNat_eq_ofNat, BitVec.toNat_ofNat, Nat.zero_mod, Nat.or_zero]

@[simp] theorem cmdClass_portWord_write (p : BitVec 3) (d : Byte) : cmdClass (portWord true p d) = 0#4 := by
  have := p.isLt; have := d.isLt
  apply BitVec.eq_of_toNat_eq
  rw [cmdClass, BitVec.extractLsb'_toNat, portWord_write_toNat, Nat.shiftRight_eq_div_pow, BitVec.toNat_ofNat]
  omega

@[simp] theorem cmdIsWrite_portWord_write (p : BitVec 3) (d : Byte) : cmdIsWrite (portWord true p d) = true := by
  unfold cmdIsWrite portWord
  simp only [BitVec.getLsbD_append]
  rfl

@[simp] theorem cmdPort_portWord_write (p : BitVec 3) (d : Byte) : cmdPort (portWord true p d) = p := by
  have := p.isLt; have := d.isLt
  apply BitVec.eq_of_toNat_eq
  rw [cmdPort, BitVec.extractLsb'_toNat, portWord_write_toNat, Nat.shiftRight_eq_div_pow]
  omega

@[simp] theorem cmdData_portWord_write (p : BitVec 3) (d : Byte) : cmdData (portWord true p d) = d := by
  have := p.isLt; have := d.isLt
  apply BitVec.eq_of_toNat_eq
  rw [cmdData, BitVec.extractLsb'_toNat, portWord_write_toNat, Nat.shiftRight_eq_div_pow]
  omega

/-- A port's write word with the data byte in its low bits decodes to the port's write of that byte. -/
theorem decode_portWord_write_or (p : BitVec 3) (d : Byte) :
    decode (portWord true p 0 ||| d.setWidth 16) = .ok (writeOfPort p d) := by
  rw [← portWord_write_eq_or]
  simp [decode, decodePort]

/-! ### WR_DATA (R116) -/

/-- WR_DATA in explicit form (R116, R117). -/
theorem exec_wrData_eq (d : Byte) (s : State) : exec (.wrData d) s = .next { s with
    pat := (memWrite (dataPortAddr s.vaddr) d s).pat
    pal := (memWrite (dataPortAddr s.vaddr) d s).pal
    vaddr := s.vaddr + 1
    cart := s.cart.tail
    hooks := ⟨true, s.vaddr.setWidth 14, d, s.cart.headD unclaimed⟩ :: s.hooks
    resp := 0 } := by
  rw [← maskAddr_dataPortAddr]
  simp only [exec, execWrData, memWrite_eq]
  rfl

/-- A claimed write changes no bank (R47). -/
theorem memWrite_banks_of_claimed {s : State} (h : (nextAnswer s).claim = true) (a : RouterAddr) (v : Byte) :
    (memWrite a v s).pat = s.pat ∧ (memWrite a v s).pal = s.pal := by
  simp [memWrite_eq, patAfter, palAfter, h]

/-- The address of a data-port access after the mask is `VADDR[13:0]` (R86). -/
theorem toNat_maskAddr_dataPortAddr (v : VramAddr) : (maskAddr (dataPortAddr v)).toNat = v.toNat % 0x4000 := by
  rw [maskAddr_dataPortAddr, BitVec.toNat_setWidth]

theorem toNat_dataPortAddr (v : VramAddr) : (dataPortAddr v).toNat = v.toNat :=
  BitVec.toNat_setWidth_of_le (by decide)

/-- Settles O21: the explicit form gives the frame, and each case of the map its rule for the banks. -/
theorem wrDataWritesThroughTheRouterAndSteps : Obligations.WrDataWritesThroughTheRouterAndSteps := by
  refine ⟨decode_portWord_write_or 7, fun s d hp hq => ⟨_, exec_wrData_eq d s, rfl, fun hc => ?_, fun hc h => ?_,
    fun hc h1 h2 => ?_, fun hc h => ?_⟩⟩
  · exact memWrite_banks_of_claimed hc _ d
  · rw [← toNat_maskAddr_dataPortAddr] at h ⊢
    rw [← patKey_of_addr h]
    exact (unclaimed_pattern hc hp (route_pattern h) d).2
  · rw [← toNat_dataPortAddr] at h1 h2
    exact (unclaimed_nameTable hc (route_maskAddr_nameTable h1 h2) d).2
  · rw [← toNat_dataPortAddr] at h
    obtain ⟨-, hpal, hpat⟩ := unclaimed_palette hc hq (route_maskAddr_palette h) d
    rw [dataPortAddr, BitVec.setWidth_setWidth_of_le _ (by decide)] at hpal
    exact ⟨hpat, hpal⟩

/-! ### No operation reads `MASK` (R104) -/

/-- The first part of TICK in explicit form (R131). -/
theorem tickClearVblank_eq (s : State) :
    tickClearVblank s = { s with vblank := s.vblank && !atVblankClear s.scanline s.cycle } := by
  unfold tickClearVblank
  cases atVblankClear s.scanline s.cycle <;> simp

/-- The second part of TICK in explicit form (R132). -/
theorem tickSetVblank_eq (s : State) : tickSetVblank s = { s with
    vblank := s.vblank || atVblankSet s.scanline s.cycle
    irq := s.irq || (atVblankSet s.scanline s.cycle && ctrlNmiEn s.ctrl) } := by
  unfold tickSetVblank
  cases atVblankSet s.scanline s.cycle with
  | false => simp
  | true => cases ctrlNmiEn s.ctrl <;> simp [raiseIrq]

/-- TICK in explicit form: both tests look at the position before it advances (R130 to R134). -/
theorem exec_tick_eq (s : State) : exec .tick s = .next { s with
    vblank := (s.vblank && !atVblankClear s.scanline s.cycle) || atVblankSet s.scanline s.cycle
    irq := s.irq || (atVblankSet s.scanline s.cycle && ctrlNmiEn s.ctrl)
    scanline := nextScanline s.scanline s.cycle
    cycle := nextCycle s.cycle
    ticks := s.ticks + 1
    resp := (BitVec.ofBool (frameDone s.scanline s.cycle)).setWidth 32 } := by
  rw [exec, execTick, tickSetVblank_eq, tickClearVblank_eq]
  rfl

/-- An operation other than WR_MASK does and answers the same with another byte in `MASK` (R104). -/
theorem exec_mask_irrelevant {i : Instr} {s t : State} (m : Byte) (h : exec i s = .next t) (hi : ∀ d, i ≠ .wrMask d) :
    exec i { s with mask := m } = .next { t with mask := m } := by
  cases i with
  | wrMask d => exact absurd rfl (hi d)
  | wrAddr d => rw [exec_wrAddr_eq] at h ⊢; cases h; rfl
  | wrData d => rw [exec_wrData_eq, memWrite_eq] at h ⊢; cases h; rfl
  | tick => rw [exec_tick_eq] at h ⊢; cases h; rfl
  | decode ti ps =>
    rw [exec_decode_eq] at h ⊢
    cases h
    rw [tableDiag_congr (s := s) (t := { s with mask := m }) rfl rfl,
      tableCalls_congr (s := s) (t := { s with mask := m }) rfl rfl]
  | _ => cases h; rfl

/-- Settles O13: WR_MASK's word and store, and every other operation under another `MASK`. -/
theorem wrMaskStoresAByteNothingReads : Obligations.WrMaskStoresAByteNothingReads :=
  ⟨decode_portWord_write_or 1, fun _ _ => rfl, fun _ _ _ m h hi => exec_mask_irrelevant m h hi⟩

/-! ### The no-op writes and WR_CTRL -/

/-- Settles O11: the four words decode as the ports' writes, and each meaning is the no-op write (R106, R108, R110, R112). -/
theorem noOpPortWritesDropTheByte : Obligations.NoOpPortWritesDropTheByte := by
  intro d
  refine ⟨decode_portWord_write_or 2 d, decode_portWord_write_or 3 d, decode_portWord_write_or 4 d,
    decode_portWord_write_or 5 d, fun i hi s => ?_⟩
  simp only [List.mem_cons, List.not_mem_nil, or_false] at hi
  rcases hi with rfl | rfl | rfl | rfl <;> rfl

/-- Settles O12: WR_CTRL's word and store, and the step of both data-port accesses from any `CTRL` (R102, R117). -/
theorem wrCtrlStoresTheByteAlone : Obligations.WrCtrlStoresTheByteAlone :=
  ⟨decode_portWord_write_or 0, fun _ _ => rfl, fun _ _ => ⟨_, rfl, rfl⟩, fun _ d _ => ⟨_, exec_wrData_eq d _, rfl⟩⟩

end Sys2Proof.Machine
end

section
/-! SUPPORT. The words of TICK and its meaning in the form of R130's pseudocode (spec 30_encoding.md R72, R75;
41_timing_fsm.md R130 to R134). -/

namespace Sys2Proof.Machine

/-! ### Words by their class (R72, R75) -/

/-- The mask of a class row of R75's table leaves the class field of a word, followed by zeros. -/
theorem and_classMask (w : Cmd) : w &&& 0xF000 = cmdClass w ++ 0#12 := by
  have hw : w = cmdClass w ++ w.extractLsb' 0 12 :=
    (BitVec.extractLsb'_append_extractLsb' (w := 4) (len := 12)).symm
  have hmask : (0xF000 : Cmd) = BitVec.allOnes 4 ++ 0#12 := rfl
  calc w &&& 0xF000
      = (cmdClass w ++ w.extractLsb' 0 12) &&& (BitVec.allOnes 4 ++ 0#12) := by rw [← hw, hmask]
    _ = cmdClass w ++ 0#12 := by rw [BitVec.and_append, BitVec.and_allOnes, BitVec.and_zero]

/-- A class row of R75's table selects exactly the words with its class. -/
theorem and_classMask_eq_iff (w : Cmd) (c : BitVec 4) : w &&& 0xF000 = c ++ 0#12 ↔ cmdClass w = c := by
  rw [and_classMask, BitVec.append_left_inj]

theorem readOfPort_ne_tick (p : BitVec 3) : readOfPort p ≠ .tick := by
  revert p; decide

theorem writeOfPort_ne_tick (p : BitVec 3) (d : Byte) : writeOfPort p d ≠ .tick := by
  unfold writeOfPort
  split <;> exact Instr.noConfusion

theorem decodePort_ne_tick (w : Cmd) : decodePort w ≠ .tick := by
  unfold decodePort
  split
  · exact writeOfPort_ne_tick _ _
  · exact readOfPort_ne_tick _

theorem decode_eq_tick_iff (w : Cmd) : decode w = .ok .tick ↔ cmdClass w = 1#4 := by
  rw [← BitVec.toNat_inj, decode]
  split
  case h_1 hclass => simp [hclass, decodePort_ne_tick]
  case h_2 hclass => simp [hclass]
  all_goals simp_all

/-! ### TICK in the form of R130 -/

theorem atVblankClear_iff (line : Int) (cycle : Nat) : atVblankClear line cycle = true ↔ line = -1 ∧ cycle = 1 := by
  simp [atVblankClear]

theorem atVblankSet_iff (line : Int) (cycle : Nat) : atVblankSet line cycle = true ↔ line = 241 ∧ cycle = 1 := by
  simp [atVblankSet]

theorem frameDone_iff (line : Int) (cycle : Nat) : frameDone line cycle = true ↔ cycle + 1 = 341 ∧ line + 1 = 261 := by
  simp [frameDone, cyclesPerLine, scanlineEnd]

/-- `VBLANK` after a TICK; the positions of the two tests exclude each other (R131, R132). -/
theorem tick_vblank_eq (s : State) :
    ((s.vblank && !atVblankClear s.scanline s.cycle) || atVblankSet s.scanline s.cycle) =
      if s.scanline = -1 ∧ s.cycle = 1 then false else if s.scanline = 241 ∧ s.cycle = 1 then true else s.vblank := by
  split_ifs with hclear hset
  · obtain ⟨h1, h2⟩ := hclear
    simp [h1, h2, atVblankClear, atVblankSet]
  · rw [(atVblankSet_iff _ _).2 hset, Bool.or_true]
  · simp only [← atVblankClear_iff, ← atVblankSet_iff, Bool.not_eq_true] at hclear hset
    simp [hclear, hset]

/-- `IRQ` after a TICK: raised at (241, 1) if `CTRL[7]` is 1, else kept (R132). -/
theorem tick_irq_eq (s : State) :
    (s.irq || (atVblankSet s.scanline s.cycle && ctrlNmiEn s.ctrl)) =
      if s.scanline = 241 ∧ s.cycle = 1 ∧ s.ctrl.getLsbD 7 = true then true else s.irq := by
  simp only [← and_assoc, ← atVblankSet_iff, ctrlNmiEn, ← Bool.and_eq_true]
  cases atVblankSet s.scanline s.cycle && s.ctrl.getLsbD 7 <;> simp

/-- The response of a TICK is `frame_done` in bit 0 (R74, R134). -/
theorem frameDone_response (line : Int) (cycle : Nat) : (BitVec.ofBool (frameDone line cycle)).setWidth 32 =
    if cycle + 1 = 341 ∧ line + 1 = 261 then (1 : Resp) else 0 := by
  simp only [← frameDone_iff]
  cases frameDone line cycle <;> rfl

/-- Settles O30: TICK's words are those of class 1, and each field of its explicit form is R130's. -/
theorem tickAdvancesThePosition : Obligations.TickAdvancesThePosition := by
  refine ⟨fun w => ?_, fun s => ?_⟩
  · exact (decode_eq_tick_iff w).trans (and_classMask_eq_iff w 1).symm
  · rw [exec_tick_eq, tick_vblank_eq, tick_irq_eq, frameDone_response]
    rfl

end Sys2Proof.Machine
end

section
/-! SUPPORT. What the decoder reads and writes: a palette read looks at `PAL` and the cartridge's answers alone, and COLOR
in explicit form (spec 42_decoder.md R88, R140, R144). -/

namespace Sys2Proof.Machine

/-- COLOR's address lies in the palette region for every operand (R88). -/
theorem route_colorAddr (ci : BitVec 2) (ps : BitVec 3) :
    route (maskAddr (colorAddr ci ps)) = .palette (palidx ((colorAddr ci ps).setWidth 5)) := by
  have := ci.isLt; have := ps.isLt
  exact route_maskAddr_palette (by rw [colorAddr_toNat]; omega)

theorem nextAnswer_congr {s t : State} (hc : t.cart = s.cart) : nextAnswer t = nextAnswer s := by
  rw [nextAnswer, hc, nextAnswer]

/-- The byte COLOR reads depends on `PAL` and the cartridge's next answer, and not on `PAT`. -/
theorem memReadValue_colorAddr_congr {s t : State} (hq : t.pal = s.pal) (hc : t.cart = s.cart) (ci : BitVec 2)
    (ps : BitVec 3) : memReadValue (colorAddr ci ps) t = memReadValue (colorAddr ci ps) s := by
  have hbank : bankRead t (maskAddr (colorAddr ci ps)) = bankRead s (maskAddr (colorAddr ci ps)) := by
    simp only [bankRead, route_colorAddr, hq]
  rw [memReadValue_eq, memReadValue_eq, nextAnswer_congr hc, hbank]

/-- COLOR in explicit form: one call, and the pixel as response (R144). -/
theorem exec_color_eq (ci : BitVec 2) (ps : BitVec 3) (s : State) : exec (.color ci ps) s = .next { s with
    cart := s.cart.tail
    hooks := ⟨false, maskAddr (colorAddr ci ps), wdataOnRead, nextAnswer s⟩ :: s.hooks
    resp := rgba (lookup (memReadValue (colorAddr ci ps) s)) } := rfl

/-- Settles O47: each operation's explicit form writes only its outputs (and DECODE `DIAG`), and what it writes there is a
function of the banks and the answers. -/
theorem decoderReadsNoRegister : Obligations.DecoderReadsNoRegister := by
  refine ⟨fun ti ps s s' hpat hpal hdiag hcart => ?_, fun ci ps s s' hpal hcart => ?_, fun s => ?_⟩
  · refine ⟨_, _, exec_decode_eq ti ps s, exec_decode_eq ti ps s', ?_, by dsimp only⟩
    dsimp only
    rw [tableDiag_congr hpat hpal, hcart, hdiag]
  · refine ⟨_, _, exec_color_eq ci ps s, exec_color_eq ci ps s', ?_, rfl⟩
    exact congrArg (rgba ∘ lookup) (memReadValue_colorAddr_congr hpal hcart ci ps)
  · exact ⟨_, exec_tick_eq s, rfl, rfl, rfl⟩

end Sys2Proof.Machine
end

section
/-! SUPPORT. Completion of every operation and edge, and what an operation can do to the interrupt request (spec
60_exceptions.md R160, R178, R179). -/

namespace Sys2Proof.Machine

/-! ### What an operation does to `IRQ` (R136, R169, R179) -/

/-- `IRQ` after an operation: TICK may raise it, IRQ_ACK clears it, and every other operation leaves it alone. -/
theorem exec_irq_cases {i : Instr} {s t : State} (h : exec i s = .next t) :
    (i = .tick ∧ t.irq = (s.irq || (atVblankSet s.scanline s.cycle && ctrlNmiEn s.ctrl))) ∨
    (i = .irqAck ∧ t.irq = false) ∨ t.irq = s.irq := by
  cases i with
  | tick => rw [exec_tick_eq] at h; cases h; exact .inl ⟨rfl, rfl⟩
  | irqAck => cases h; exact .inr (.inl ⟨rfl, rfl⟩)
  | wrAddr d => rw [exec_wrAddr_eq] at h; cases h; exact .inr (.inr rfl)
  | wrData d => rw [exec_wrData_eq] at h; cases h; exact .inr (.inr rfl)
  | decode ti ps => rw [exec_decode_eq] at h; cases h; exact .inr (.inr rfl)
  | _ => cases h; exact .inr (.inr rfl)

/-- An operation that takes `IRQ` from 0 to 1 is a TICK at the position that sets `VBLANK`, with `NMI_EN` set. -/
theorem exec_raises_irq {i : Instr} {s t : State} (h : exec i s = .next t) (h0 : s.irq = false) (h1 : t.irq = true) :
    i = .tick ∧ atVblankSet s.scanline s.cycle = true ∧ ctrlNmiEn s.ctrl = true := by
  rcases exec_irq_cases h with ⟨hi, ht⟩ | ⟨-, ht⟩ | ht
  · rw [h1, h0, Bool.false_or, eq_comm, Bool.and_eq_true] at ht
    exact ⟨hi, ht⟩
  · simp [h1] at ht
  · simp [h1, h0] at ht

/-- Settles O38: WR_CTRL stores `CTRL` alone, and only TICK's test for (241, 1) raises the request. -/
theorem wrCtrlNeverRaisesIrq : Obligations.WrCtrlNeverRaisesIrq := by
  refine ⟨fun _ _ => ⟨_, rfl, rfl, fun _ => rfl⟩, fun i s t h h0 h1 => ?_⟩
  obtain ⟨hi, hset, -⟩ := exec_raises_irq h h0 h1
  exact ⟨hi, (atVblankSet_iff _ _).1 hset⟩

/-! ### Completion (R160) -/

/-- Every operation answers a next state: each arm of the dispatch has its meaning and none faults. -/
theorem exec_completes (i : Instr) (s : State) : ∃ t, exec i s = .next t := by
  cases i <;> exact ⟨_, rfl⟩

/-- Every edge answers a next state: RESET, the operation of a decoded word, and the idle edges. -/
theorem onEdge_completes (e : Edge) (s : State) : ∃ t, onEdge e s = .next t := by
  unfold onEdge
  split_ifs
  · exact ⟨_, rfl⟩
  · cases decode e.cmd with
    | ok i => exact exec_completes i s
    | error _ => exact ⟨_, rfl⟩
  · exact ⟨_, rfl⟩

/-- Settles O9: the fault type has no constructor, and operations and edges complete. -/
theorem everyOperationCompletes : Obligations.EveryOperationCompletes :=
  ⟨⟨nofun⟩, exec_completes, fun s => onEdge_completes (nextEdge s) (beginStep s)⟩

/-! ### RD_STATUS (R105, R178) -/

/-- RD_STATUS in explicit form: `IRQ` is neither among what it writes nor in what it responds (R105). -/
theorem exec_rdStatus_eq (s : State) : exec .rdStatus s = .next { s with
    vblank := false
    latch := false
    resp := (statusByte s.vblank s.sprite0 s.sprovf s.rbuf).setWidth 32 } := rfl

/-- Settles O15: the explicit form mentions no `IRQ`, so it is the same under either value. -/
theorem rdStatusNeitherReadsNorWritesIrq : Obligations.RdStatusNeitherReadsNorWritesIrq := fun s =>
  ⟨_, exec_rdStatus_eq s, rfl, rfl, rfl, fun b => exec_rdStatus_eq { s with irq := b }⟩

end Sys2Proof.Machine
end

section
/-! SUPPORT. RD_DATA in explicit form, and data-port accesses to the name-table range that no cartridge claims (spec
40_port_operations.md R115, R117; 70_reset_and_hazards.md R199). -/

namespace Sys2Proof.Machine

/-- RD_DATA in explicit form (R115, R117). -/
theorem exec_rdData_eq (s : State) : exec .rdData s = .next { s with
    rbuf := memReadValue (dataPortAddr s.vaddr) s
    vaddr := s.vaddr + 1
    cart := s.cart.tail
    hooks := ⟨false, s.vaddr.setWidth 14, wdataOnRead, s.cart.headD unclaimed⟩ :: s.hooks
    resp := (dataPortResponse s.vaddr (memReadValue (dataPortAddr s.vaddr) s) s.rbuf).setWidth 32 } := by
  rw [← maskAddr_dataPortAddr]
  rfl

/-- The name-table range of `VADDR[13:0]` routes to the placeholder, in both halves of the 15 bits (R54, R86). -/
theorem route_dataPortAddr_nameTable {v : VramAddr} (h1 : 0x2000 ≤ v.toNat % 0x4000) (h2 : v.toNat % 0x4000 ≤ 0x3EFF) :
    route (maskAddr (dataPortAddr v)) = .nameTable := by
  rw [← toNat_dataPortAddr] at h1 h2
  exact route_maskAddr_nameTable h1 h2

/-- Settles O22: the access reaches the placeholder, which reads 0x00 and takes no byte; the explicit forms of WR_DATA and
RD_DATA give the rest, the step of `VADDR` among it. -/
theorem nameTableAccessesAreLost : Obligations.NameTableAccessesAreLost := by
  intro s h1 h2 hc
  have lost := unclaimed_nameTable (s := s) hc (route_dataPortAddr_nameTable h1 h2)
  have hread : memReadValue (dataPortAddr s.vaddr) s = 0x00 := (lost 0).1
  refine ⟨fun d => ?_, hread, _, exec_rdData_eq s, hread, rfl, rfl, rfl⟩
  obtain ⟨-, hpat, hpal⟩ := lost d
  rw [exec_wrData_eq, hpat, hpal]

end Sys2Proof.Machine
end

section
/-! SUPPORT. The command word as its fields, and the decoder as a bijection between the operations and the significant bits
of the words (spec 30_encoding.md R72, R75, R90, R91). -/

namespace Sys2Proof.Machine

/-! ### A word is its fields (R72) -/

/-- Concatenations of the same widths are equal exactly when their parts are. -/
theorem append_inj_iff {n m : Nat} {x x' : BitVec n} {y y' : BitVec m} : x ++ y = x' ++ y' ↔ x = x' ∧ y = y' := by
  refine ⟨fun h => ?_, fun ⟨hx, hy⟩ => by rw [hx, hy]⟩
  have hx : x = x' := by
    rw [← BitVec.extractLsb'_append_eq_left (a := x) (b := y), h, BitVec.extractLsb'_append_eq_left]
  exact ⟨hx, (BitVec.append_right_inj x).1 (hx ▸ h)⟩

theorem ofBool_cmdIsWrite (w : Cmd) : BitVec.ofBool (cmdIsWrite w) = w.extractLsb' 11 1 := by
  rw [cmdIsWrite, BitVec.getLsbD_eq_extractLsb']
  generalize w.extractLsb' 11 1 = b
  revert b; decide

/-- The fields of a class 0 word. -/
theorem portFields_eq (w : Cmd) : cmdClass w ++ BitVec.ofBool (cmdIsWrite w) ++ cmdPort w ++ cmdData w = w := by
  rw [ofBool_cmdIsWrite, cmdClass, cmdPort, cmdData,
    BitVec.extractLsb'_append_extractLsb'_eq_extractLsb' (start₂ := 12) (start₁ := 11) (len₁ := 1) rfl,
    BitVec.extractLsb'_append_extractLsb'_eq_extractLsb' (start₂ := 11) (start₁ := 8) (len₁ := 3) rfl]
  exact BitVec.extractLsb'_append_extractLsb' (w := 8) (len := 8)

/-- The fields of a COLOR word. -/
theorem colorFields_eq (w : Cmd) :
    cmdClass w ++ w.extractLsb' 5 7 ++ w.extractLsb' 2 3 ++ w.extractLsb' 0 2 = w := by
  rw [cmdClass,
    BitVec.extractLsb'_append_extractLsb'_eq_extractLsb' (start₂ := 12) (start₁ := 5) (len₁ := 7) rfl,
    BitVec.extractLsb'_append_extractLsb'_eq_extractLsb' (start₂ := 5) (start₁ := 2) (len₁ := 3) rfl]
  exact BitVec.extractLsb'_append_extractLsb' (w := 14) (len := 2)

/-- The fields of a DECODE word. -/
theorem decodeFields_eq (w : Cmd) :
    cmdClass w ++ w.extractLsb' 4 8 ++ w.extractLsb' 3 1 ++ w.extractLsb' 0 3 = w := by
  rw [cmdClass,
    BitVec.extractLsb'_append_extractLsb'_eq_extractLsb' (start₂ := 12) (start₁ := 4) (len₁ := 8) rfl,
    BitVec.extractLsb'_append_extractLsb'_eq_extractLsb' (start₂ := 4) (start₁ := 3) (len₁ := 1) rfl]
  exact BitVec.extractLsb'_append_extractLsb' (w := 13) (len := 3)

/-- A mask made of four fields masks each field of a word. -/
theorem and_fields {a b c d : Nat} (x x' : BitVec a) (y y' : BitVec b) (z z' : BitVec c) (u u' : BitVec d) :
    (x ++ y ++ z ++ u) &&& (x' ++ y' ++ z' ++ u') = (x &&& x') ++ (y &&& y') ++ (z &&& z') ++ (u &&& u') := by
  simp only [BitVec.and_append]

theorem fields_inj {a b c d : Nat} {x x' : BitVec a} {y y' : BitVec b} {z z' : BitVec c} {u u' : BitVec d}
    (h : x ++ y ++ z ++ u = x' ++ y' ++ z' ++ u') : x = x' ∧ y = y' ∧ z = z' ∧ u = u' := by
  simpa only [append_inj_iff, and_assoc] using h

/-- The significant bits of a port read: all fields but the data byte. -/
theorem and_readMask (w : Cmd) :
    w &&& 0xFF00 = cmdClass w ++ BitVec.ofBool (cmdIsWrite w) ++ cmdPort w ++ 0#8 := by
  have h := and_fields (cmdClass w) (BitVec.allOnes 4) (BitVec.ofBool (cmdIsWrite w)) (BitVec.allOnes 1) (cmdPort w)
    (BitVec.allOnes 3) (cmdData w) 0#8
  rw [portFields_eq] at h
  simp only [BitVec.and_allOnes, BitVec.and_zero] at h
  exact h

/-- The significant bits of COLOR: the class and the two operands. -/
theorem and_colorMask (w : Cmd) :
    w &&& 0xF01F = cmdClass w ++ 0#7 ++ w.extractLsb' 2 3 ++ w.extractLsb' 0 2 := by
  have h := and_fields (cmdClass w) (BitVec.allOnes 4) (w.extractLsb' 5 7) 0#7 (w.extractLsb' 2 3) (BitVec.allOnes 3)
    (w.extractLsb' 0 2) (BitVec.allOnes 2)
  rw [colorFields_eq] at h
  simp only [BitVec.and_allOnes, BitVec.and_zero] at h
  exact h

/-- The significant bits of DECODE: the class and the two operands. -/
theorem and_decodeMask (w : Cmd) :
    w &&& 0xF00F = cmdClass w ++ 0#8 ++ w.extractLsb' 3 1 ++ w.extractLsb' 0 3 := by
  have h := and_fields (cmdClass w) (BitVec.allOnes 4) (w.extractLsb' 4 8) 0#8 (w.extractLsb' 3 1) (BitVec.allOnes 1)
    (w.extractLsb' 0 3) (BitVec.allOnes 3)
  rw [decodeFields_eq] at h
  simp only [BitVec.and_allOnes, BitVec.and_zero] at h
  exact h

/-! ### The port operations by their port (R75, R76) -/

theorem forall_port {P : BitVec 3 → Prop} (h0 : P 0) (h1 : P 1) (h2 : P 2) (h3 : P 3) (h4 : P 4) (h5 : P 5) (h6 : P 6)
    (h7 : P 7) (p : BitVec 3) : P p := by
  have hp : p = 0 ∨ p = 1 ∨ p = 2 ∨ p = 3 ∨ p = 4 ∨ p = 5 ∨ p = 6 ∨ p = 7 := by revert p; decide
  rcases hp with rfl | rfl | rfl | rfl | rfl | rfl | rfl | rfl <;> assumption

@[simp] theorem encode_readOfPort (p : BitVec 3) : encode (readOfPort p) = portWord false p 0 := by
  revert p; decide

@[simp] theorem significantBits_readOfPort (p : BitVec 3) : significantBits (readOfPort p) = 0xFF00 := by
  revert p; decide

@[simp] theorem encode_writeOfPort (p : BitVec 3) (d : Byte) : encode (writeOfPort p d) = portWord true p d :=
  forall_port (P := fun p => encode (writeOfPort p d) = portWord true p d) rfl rfl rfl rfl rfl rfl rfl rfl p

@[simp] theorem significantBits_writeOfPort (p : BitVec 3) (d : Byte) : significantBits (writeOfPort p d) = 0xFFFF :=
  forall_port (P := fun p => significantBits (writeOfPort p d) = 0xFFFF) rfl rfl rfl rfl rfl rfl rfl rfl p

/-- Every operation is a port's read or write, or one of the four others. -/
theorem instr_cases (i : Instr) : (∃ p, i = readOfPort p) ∨ (∃ p d, i = writeOfPort p d) ∨ i = .tick ∨ i = .irqAck ∨
    (∃ ci ps, i = .color ci ps) ∨ ∃ ti ps, i = .decode ti ps := by
  cases i with
  | rdCtrl => exact .inl ⟨0, rfl⟩
  | rdMask => exact .inl ⟨1, rfl⟩
  | rdStatus => exact .inl ⟨2, rfl⟩
  | rdOamaddr => exact .inl ⟨3, rfl⟩
  | rdOamdata => exact .inl ⟨4, rfl⟩
  | rdScroll => exact .inl ⟨5, rfl⟩
  | rdAddr => exact .inl ⟨6, rfl⟩
  | rdData => exact .inl ⟨7, rfl⟩
  | wrCtrl d => exact .inr (.inl ⟨0, d, rfl⟩)
  | wrMask d => exact .inr (.inl ⟨1, d, rfl⟩)
  | wrStatus d => exact .inr (.inl ⟨2, d, rfl⟩)
  | wrOamaddr d => exact .inr (.inl ⟨3, d, rfl⟩)
  | wrOamdata d => exact .inr (.inl ⟨4, d, rfl⟩)
  | wrScroll d => exact .inr (.inl ⟨5, d, rfl⟩)
  | wrAddr d => exact .inr (.inl ⟨6, d, rfl⟩)
  | wrData d => exact .inr (.inl ⟨7, d, rfl⟩)
  | tick => exact .inr (.inr (.inl rfl))
  | irqAck => exact .inr (.inr (.inr (.inl rfl)))
  | color ci ps => exact .inr (.inr (.inr (.inr (.inl ⟨ci, ps, rfl⟩))))
  | decode ti ps => exact .inr (.inr (.inr (.inr (.inr ⟨ti, ps, rfl⟩))))

/-! ### The decoder by the class of the word (R73, R90) -/

/-- What a word decodes to: one operation per class 0 to 4, the reserved classes to none. -/
theorem decode_cases (w : Cmd) :
    (cmdClass w = 0#4 ∧ decode w = .ok (decodePort w)) ∨
    (cmdClass w = 1#4 ∧ decode w = .ok .tick) ∨
    (cmdClass w = 2#4 ∧ decode w = .ok .irqAck) ∨
    (cmdClass w = 3#4 ∧ decode w = .ok (.color (w.extractLsb' 0 2) (w.extractLsb' 2 3))) ∨
    (cmdClass w = 4#4 ∧ decode w = .ok (.decode (w.extractLsb' 3 1) (w.extractLsb' 0 3))) ∨
    (5 ≤ (cmdClass w).toNat ∧ decode w = .error .reservedClass) := by
  simp only [← BitVec.toNat_inj, decode]
  split
  case h_6 h0 h1 h2 h3 h4 => simp_all; omega
  all_goals simp_all

/-- A word that decodes to an operation has the operation's significant bits. -/
theorem and_significantBits_of_decode {w : Cmd} {i : Instr} (h : decode w = .ok i) :
    w &&& significantBits i = encode i := by
  rcases decode_cases w with ⟨hc, hd⟩ | ⟨hc, hd⟩ | ⟨hc, hd⟩ | ⟨hc, hd⟩ | ⟨hc, hd⟩ | ⟨-, hd⟩ <;>
    rw [hd] at h <;> cases h
  · unfold decodePort
    cases hw : cmdIsWrite w with
    | false =>
      have h := and_readMask w
      rw [hc, hw] at h
      simp only [Bool.false_eq_true, if_false, encode_readOfPort, significantBits_readOfPort]
      exact h
    | true =>
      have h := portFields_eq w
      rw [hc, hw] at h
      simp only [encode_writeOfPort, significantBits_writeOfPort, if_true]
      exact (BitVec.and_allOnes (x := w)).trans h.symm
  · exact (and_classMask w).trans (by rw [hc]; rfl)
  · exact (and_classMask w).trans (by rw [hc]; rfl)
  · exact (and_colorMask w).trans (by rw [hc]; rfl)
  · exact (and_decodeMask w).trans (by rw [hc]; rfl)

/-- A word with an operation's significant bits decodes to the operation. -/
theorem decode_of_and_significantBits {w : Cmd} {i : Instr} (h : w &&& significantBits i = encode i) :
    decode w = .ok i := by
  obtain ⟨p, rfl⟩ | ⟨p, d, rfl⟩ | rfl | rfl | ⟨ci, ps, rfl⟩ | ⟨ti, ps, rfl⟩ := instr_cases i
  · rw [significantBits_readOfPort, encode_readOfPort] at h
    obtain ⟨hc, hw, hp, -⟩ := fields_inj ((and_readMask w).symm.trans h)
    simp [decode, decodePort, hc, BitVec.ofBool_eq_iff_eq.1 hw, hp]
  · rw [significantBits_writeOfPort, encode_writeOfPort] at h
    obtain rfl : w = portWord true p d := (BitVec.and_allOnes (x := w)).symm.trans h
    simp [decode, decodePort]
  · exact (decode_eq_tick_iff w).2 ((and_classMask_eq_iff w _).1 h)
  · have hc := (and_classMask_eq_iff w _).1 h
    simp [decode, hc]
  · obtain ⟨hc, -, hps, hci⟩ := fields_inj ((and_colorMask w).symm.trans h)
    simp [decode, hc, hps, hci]
  · obtain ⟨hc, -, hti, hps⟩ := fields_inj ((and_decodeMask w).symm.trans h)
    simp [decode, hc, hti, hps]

/-- Settles O3: the decoder and the significant bits say the same of a word, class by class. -/
theorem decodeReadsExactlyTheSignificantBits : Obligations.DecodeReadsExactlyTheSignificantBits := fun _ _ =>
  ⟨and_significantBits_of_decode, decode_of_and_significantBits⟩

/-- The facts about each operation as syntax, for every operation. -/
theorem canonicalWord (i : Instr) : Laws.CanonicalWord.Statement i := by
  cases i with
  | rdCtrl => exact Laws.CanonicalWord.rdCtrl
  | rdMask => exact Laws.CanonicalWord.rdMask
  | rdStatus => exact Laws.CanonicalWord.rdStatus
  | rdOamaddr => exact Laws.CanonicalWord.rdOamaddr
  | rdOamdata => exact Laws.CanonicalWord.rdOamdata
  | rdScroll => exact Laws.CanonicalWord.rdScroll
  | rdAddr => exact Laws.CanonicalWord.rdAddr
  | rdData => exact Laws.CanonicalWord.rdData
  | wrCtrl d => exact Laws.CanonicalWord.wrCtrl d
  | wrMask d => exact Laws.CanonicalWord.wrMask d
  | wrStatus d => exact Laws.CanonicalWord.wrStatus d
  | wrOamaddr d => exact Laws.CanonicalWord.wrOamaddr d
  | wrOamdata d => exact Laws.CanonicalWord.wrOamdata d
  | wrScroll d => exact Laws.CanonicalWord.wrScroll d
  | wrAddr d => exact Laws.CanonicalWord.wrAddr d
  | wrData d => exact Laws.CanonicalWord.wrData d
  | tick => exact Laws.CanonicalWord.tick
  | irqAck => exact Laws.CanonicalWord.irqAck
  | color ci ps => exact Laws.CanonicalWord.color ci ps
  | decode ti ps => exact Laws.CanonicalWord.decode ti ps

/-- A canonical word has no bit outside the significant ones. -/
theorem encode_and_significantBits (i : Instr) : encode i &&& significantBits i = encode i := by
  obtain ⟨-, hzero, -⟩ := canonicalWord i
  calc encode i &&& significantBits i
      = (encode i &&& significantBits i) ||| (encode i &&& ~~~significantBits i) := by
        rw [hzero]; exact BitVec.or_zero.symm
    _ = encode i := by
      rw [← BitVec.and_or_distrib_left, BitVec.or_not_self, BitVec.and_allOnes]

/-- The decoder undoes the encoder (R72). -/
@[simp] theorem decode_encode (i : Instr) : decode (encode i) = .ok i :=
  decode_of_and_significantBits (encode_and_significantBits i)

/-- Settles O2: a canonical word has exactly its operation's significant bits. -/
theorem decodeOfEncodeIsIdentity : Obligations.DecodeOfEncodeIsIdentity := fun i _ => decode_encode i

/-- Settles O1: each listed word, evaluated by the decoder. -/
theorem specWordsDecodeAsListed : Obligations.SpecWordsDecodeAsListed := by
  unfold Obligations.SpecWordsDecodeAsListed
  decide

/-! ### The opcode table (R75, R90) -/

theorem selects_iff (r : OpcodeRow) (w : Cmd) : r.selects w = true ↔ w &&& r.mask = r.pattern := by
  rw [OpcodeRow.selects, beq_iff_eq]

/-- No word selects two rows of the table: some bit that both rows look at differs in their patterns. -/
theorem opcodeTable_disjoint (w : Cmd) :
    opcodeTable.Pairwise fun r r' => r.selects w = true → r'.selects w = true → False := by
  have hbits : opcodeTable.Pairwise fun r r' => r.pattern &&& r'.mask ≠ r'.pattern &&& r.mask := by decide
  refine hbits.imp fun hne h h' => hne ?_
  rw [← (selects_iff _ w).1 h, ← (selects_iff _ w).1 h', BitVec.and_assoc, BitVec.and_assoc,
    BitVec.and_comm (x := OpcodeRow.mask _)]

/-- Filtering by a predicate that no two elements meet leaves the one that meets it. -/
theorem filter_eq_singleton {α : Type} {p : α → Bool} {l : List α}
    (hl : l.Pairwise fun a b => p a = true → p b = true → False) {a : α} (ha : a ∈ l) (hp : p a = true) : l.filter p = [a] := by
  induction l with
  | nil => cases ha
  | cons b l ih =>
    obtain ⟨hb, hl⟩ := List.pairwise_cons.1 hl
    rcases List.mem_cons.1 ha with rfl | ha
    · rw [List.filter_cons_of_pos hp, List.filter_eq_nil_iff.2 fun c hc hpc => hb c hc hp hpc]
    · rw [List.filter_cons_of_neg fun hpb => hb a ha hpb hp, ih hl ha]

/-- A word selects the row of the operation it decodes to, and no other. -/
theorem rows_of_decode {w : Cmd} {i : Instr} (h : decode w = .ok i) :
    (opcodeTable.filter fun r => r.selects w).map OpcodeRow.mnemonic = [mnemonicOf i] := by
  obtain ⟨-, -, r, hr, hname, hsel, hmask⟩ := canonicalWord i
  have hw : r.selects w = true := by
    rw [selects_iff] at hsel ⊢
    rw [← hsel, ← and_significantBits_of_decode h, BitVec.and_assoc, BitVec.and_comm (x := significantBits i), hmask]
  rw [filter_eq_singleton (opcodeTable_disjoint w) hr hw, List.map_singleton, hname]

/-- Every row of the table looks at the class, which is 0 to 4 in its pattern. -/
theorem cmdClass_le_of_selects {w : Cmd} {r : OpcodeRow} (hr : r ∈ opcodeTable) (h : r.selects w = true) :
    (cmdClass w).toNat ≤ 4 := by
  have hrow : ∀ r ∈ opcodeTable, cmdClass r.mask = BitVec.allOnes 4 ∧ (cmdClass r.pattern).toNat ≤ 4 := by decide
  obtain ⟨hmask, hle⟩ := hrow r hr
  rwa [← (selects_iff r w).1 h, cmdClass, BitVec.extractLsb'_and, ← cmdClass, ← cmdClass, hmask,
    BitVec.and_allOnes] at hle

theorem decode_eq_reserved_iff (w : Cmd) : decode w = .error .reservedClass ↔ 5 ≤ (cmdClass w).toNat := by
  rcases decode_cases w with ⟨h, hd⟩ | ⟨h, hd⟩ | ⟨h, hd⟩ | ⟨h, hd⟩ | ⟨h, hd⟩ | ⟨h, hd⟩ <;> simp [hd, h]

theorem cmdClass_toNat (w : Cmd) : (cmdClass w).toNat = w.toNat / 4096 := by
  have := w.isLt
  rw [cmdClass, BitVec.extractLsb'_toNat, Nat.shiftRight_eq_div_pow]
  omega

/-- Settles O4: each operation selects its own row, the rows are disjoint, and each has a class that is not reserved. -/
theorem opcodeRowsPartitionTheWords : Obligations.OpcodeRowsPartitionTheWords := by
  intro w
  refine ⟨fun i => rows_of_decode, ?_, fun h => ?_⟩
  · rw [decode_eq_reserved_iff, cmdClass_toNat]
  · have hclass := (decode_eq_reserved_iff w).1 h
    refine List.filter_eq_nil_iff.2 fun r hr hsel => ?_
    have := cmdClass_le_of_selects hr hsel
    omega

end Sys2Proof.Machine
end

section
/-! SUPPORT. What a step does with the edge it takes (spec 30_encoding.md R70, R71, R90; 70_reset_and_hazards.md R180), and
what each operation leaves unchanged. -/

namespace Sys2Proof.Machine

/-! ### The edge of a step (R71) -/

theorem step_of_edges {s : State} {e : Edge} {rest : List Edge} (h : s.edges = e :: rest) :
    step s = onEdge e (beginStep s) := by
  simp [step, nextEdge, h]

theorem beginStep_of_edges {s : State} {e : Edge} {rest : List Edge} (h : s.edges = e :: rest) :
    beginStep s = { s with edges := rest, resp := 0, hooks := [] } := by
  simp [beginStep, h]

/-- A step whose edge presents a word runs the operation the word decodes to. -/
theorem step_of_decode {s : State} {w : Cmd} {rest : List Edge} {i : Instr} (h : s.edges = ⟨false, true, w⟩ :: rest)
    (hd : decode w = .ok i) : step s = exec i { s with edges := rest, resp := 0, hooks := [] } := by
  rw [step_of_edges h, beginStep_of_edges h]
  simp [onEdge, hd]

/-- A step whose edge presents an operation's canonical word runs the operation. -/
theorem step_of_commandEdge {s : State} {i : Instr} {rest : List Edge} (h : s.edges = commandEdge i :: rest) :
    step s = exec i { s with edges := rest, resp := 0, hooks := [] } := step_of_decode h (decode_encode i)

theorem decode_firstWord_of_tableWord {n w : Nat} {i : Instr} (h : decodeTableWord n w = some i) :
    decode (firstWord n w) = .ok i := by
  unfold decodeTableWord at h
  cases hd : decode (firstWord n w) with
  | ok j => rw [hd] at h; cases h; rfl
  | error x => rw [hd] at h; cases h

/-- Settles O5: the step takes the edge and runs the decoded operation; a presented word is the next edge. -/
theorem stepRunsTheDecodedOperation : Obligations.StepRunsTheDecodedOperation :=
  ⟨fun _ _ _ _ h hd _ => step_of_decode h hd,
    fun s n w _ hd => step_of_decode (withFetchWord_edges s n w) (decode_firstWord_of_tableWord hd)⟩

/-- Settles O6: both kinds of idle edge, and the empty list of edges, answer the state after the edge is taken. -/
theorem idleStepsChangeNothing : Obligations.IdleStepsChangeNothing := by
  refine ⟨fun s e rest h hrst hidle => ?_, fun s h => ?_⟩
  · rw [step_of_edges h, ← beginStep_of_edges h]
    rcases hidle with hvalid | hres
    · simp [onEdge, hrst, hvalid]
    · cases hv : e.cmdValid <;> simp [onEdge, hrst, hv, hres]
  · have hstep : step s = .next (beginStep s) := by simp [step, nextEdge, h, idleEdge, onEdge]
    rw [hstep, beginStep, h, List.tail_nil, ← h]

/-- Settles O7: `rst` is looked at before `cmd_valid` and `cmd`. -/
theorem resetEdgeWinsOverTheCommand : Obligations.ResetEdgeWinsOverTheCommand := by
  intro s valid w rest h
  rw [step_of_edges h, beginStep_of_edges h]
  rfl

/-- Settles O8: the fields of the reset state, and its empty banks. -/
theorem resetLeavesTheListedValues : Obligations.ResetLeavesTheListedValues :=
  ⟨rfl, rfl, rfl, rfl, rfl, rfl, rfl, rfl, rfl, rfl, rfl, rfl, fun _ => rfl, fun _ => rfl, fun _ => rfl, fun _ => rfl, rfl⟩

/-! ### What an operation leaves unchanged -/

/-- The frame of every operation: which operations alone write a state element, call the cartridge or take its answers. -/
structure ExecFrame (i : Instr) (s t : State) : Prop where
  ctrl : (∀ d, i ≠ .wrCtrl d) → t.ctrl = s.ctrl
  vblank : i ≠ .rdStatus → i ≠ .tick → t.vblank = s.vblank
  sprite0 : t.sprite0 = s.sprite0
  sprovf : t.sprovf = s.sprovf
  latch : i ≠ .rdStatus → (∀ d, i ≠ .wrAddr d) → t.latch = s.latch
  irq : i ≠ .tick → i ≠ .irqAck → t.irq = s.irq
  position : i ≠ .tick → t.scanline = s.scanline ∧ t.cycle = s.cycle ∧ t.ticks = s.ticks
  banks : (∀ d, i ≠ .wrData d) → t.pat = s.pat ∧ t.pal = s.pal
  nt : t.nt = s.nt
  diag : (∀ ti ps, i ≠ .decode ti ps) → t.diag = s.diag
  calls : i ≠ .rdData → (∀ d, i ≠ .wrData d) → (∀ ci ps, i ≠ .color ci ps) → (∀ ti ps, i ≠ .decode ti ps) →
    t.hooks = s.hooks ∧ t.cart = s.cart

/-- Every operation keeps its frame: the explicit form of each names what it writes. -/
theorem exec_frame {i : Instr} {s t : State} (h : exec i s = .next t) : ExecFrame i s t := by
  cases i with
  | rdStatus => rw [exec_rdStatus_eq] at h; cases h; constructor <;> simp
  | rdData => rw [exec_rdData_eq] at h; cases h; constructor <;> simp
  | wrAddr d => rw [exec_wrAddr_eq] at h; cases h; constructor <;> simp
  | wrData d => rw [exec_wrData_eq] at h; cases h; constructor <;> simp
  | tick => rw [exec_tick_eq] at h; cases h; constructor <;> simp
  | color ci ps => rw [exec_color_eq] at h; cases h; constructor <;> simp
  | decode ti ps => rw [exec_decode_eq] at h; cases h; constructor <;> simp
  | _ => cases h; constructor <;> simp

/-- Settles O24: each clause is a clause of the frame. -/
theorem portOperationsLeaveTheRestAlone : Obligations.PortOperationsLeaveTheRestAlone := by
  intro i s t h htick hack hcolor hdecode
  have f := exec_frame h
  obtain ⟨hline, hcycle, hticks⟩ := f.position htick
  exact ⟨hline, hcycle, hticks, f.irq htick hack, f.diag hdecode, f.nt, f.sprite0, f.sprovf,
    fun hst => f.vblank hst htick, fun hrd hwr => f.calls hrd hwr hcolor hdecode, f.banks⟩

/-! ### Which edges change an element -/

/-- A step that changes anything but the outputs and the pending edges: its edge asserts `rst`, or presents a word whose
operation did it. -/
theorem step_changes {α : Type} {f : State → α} {s t : State} (hf : f (beginStep s) = f s) (h : step s = .next t)
    (hne : f t ≠ f s) : ∃ e rest, s.edges = e :: rest ∧ (e.rst = true ∨ (e.cmdValid = true ∧
      ∃ i, decode e.cmd = .ok i ∧ exec i (beginStep s) = .next t)) := by
  rcases step_cases h with ⟨e, rest, he, hrst, -⟩ | ⟨w, rest, i, he, hd, hx⟩ | rfl
  · exact ⟨e, rest, he, .inl hrst⟩
  · exact ⟨_, rest, he, .inr ⟨rfl, i, hd, hx⟩⟩
  · exact absurd hf hne

/-- Settles O34: the raise is TICK's at the position that sets `VBLANK`; RESET leaves `IRQ` 0. -/
theorem onlyTheVblankTickRaisesIrq : Obligations.OnlyTheVblankTickRaisesIrq := by
  refine ⟨fun s t h h0 h1 => ?_, fun s w rest hline hcycle hen he hd => ?_⟩
  · rcases step_cases h with ⟨e, rest, -, -, rfl⟩ | ⟨w, rest, i, he, hd, hx⟩ | rfl
    · cases h1
    · obtain ⟨rfl, hset, hen⟩ := exec_raises_irq hx h0 h1
      obtain ⟨hline, hcycle⟩ := (atVblankSet_iff _ _).1 hset
      exact ⟨hline, hcycle, hen, w, rest, he, hd⟩
    · exact absurd (h0.symm.trans h1) Bool.false_ne_true
  · refine ⟨_, (step_of_decode he hd).trans (exec_tick_eq _), ?_⟩
    simp [atVblankSet, ctrlNmiEn, hline, hcycle, hen]

/-- Settles O35: TICK keeps a raised request, and every operation but IRQ_ACK leaves it alone. -/
theorem onlyIrqAckAndResetClearIrq : Obligations.OnlyIrqAckAndResetClearIrq := by
  intro s t h h1 h0
  obtain ⟨e, rest, he, hrst | ⟨hvalid, i, hd, hx⟩⟩ := step_changes (f := State.irq) rfl h (by simp [h0, h1])
  · exact ⟨e, rest, he, .inl hrst⟩
  · refine ⟨e, rest, he, .inr ⟨hvalid, ?_⟩⟩
    rcases exec_irq_cases hx with ⟨-, ht⟩ | ⟨rfl, -⟩ | ht
    · simp [h0, h1] at ht
    · exact hd
    · simp [h0, h1] at ht

/-- Settles O48: DECODE is the one operation outside whose frame `DIAG` lies. -/
theorem onlyDecodeAndResetWriteDiag : Obligations.OnlyDecodeAndResetWriteDiag := by
  intro s t h hne
  obtain ⟨e, rest, he, hrst | ⟨hvalid, i, hd, hx⟩⟩ := step_changes (f := State.diag) rfl h hne
  · exact ⟨e, rest, he, .inl hrst⟩
  · refine ⟨e, rest, he, .inr ⟨hvalid, ?_⟩⟩
    by_contra hno
    exact hne ((exec_frame hx).diag fun ti ps hi => hno ⟨ti, ps, hi ▸ hd⟩)

/-! ### The position (R130, R133, R134) -/

theorem nextCycle_le {cycle : Nat} (h : cycle ≤ 340) : nextCycle cycle ≤ 340 := by
  unfold nextCycle cyclesPerLine
  split_ifs <;> omega

theorem nextScanline_range {line : Int} (h1 : -1 ≤ line) (h2 : line ≤ 260) (cycle : Nat) :
    -1 ≤ nextScanline line cycle ∧ nextScanline line cycle ≤ 260 := by
  unfold nextScanline scanlineEnd
  split_ifs <;> omega

/-- In range a TICK takes the place of the position in the frame to the next, the last one to 0. -/
theorem place_next {line : Int} {cycle : Nat} (h1 : -1 ≤ line) (h2 : line ≤ 260) (h3 : cycle ≤ 340) :
    (nextScanline line cycle + 1) * 341 + nextCycle cycle = ((line + 1) * 341 + cycle + 1) % 89342 := by
  unfold nextScanline nextCycle cyclesPerLine scanlineEnd
  split_ifs <;> omega

/-- Settles O39: TICK is the one operation outside whose frame the position lies, and it moves it one place. -/
theorem onlyTickAndResetMoveThePosition : Obligations.OnlyTickAndResetMoveThePosition := by
  refine ⟨fun s t h hne => ?_, fun s t h h1 h2 h3 => ?_⟩
  · have hpos : (t.scanline, t.cycle, t.ticks) ≠ (s.scanline, s.cycle, s.ticks) := by
      simpa only [ne_eq, Prod.mk.injEq, not_and_or] using hne
    obtain ⟨e, rest, he, hrst | ⟨hvalid, i, hd, hx⟩⟩ :=
      step_changes (f := fun s => (s.scanline, s.cycle, s.ticks)) rfl h hpos
    · exact ⟨e, rest, he, .inl hrst⟩
    · refine ⟨e, rest, he, .inr ⟨hvalid, ?_⟩⟩
      by_contra hno
      obtain ⟨hline, hcycle, hticks⟩ := (exec_frame hx).position fun hi => hno (hi ▸ hd)
      exact hpos (by rw [hline, hcycle, hticks]; rfl)
  · rw [exec_tick_eq] at h
    cases h
    exact place_next h1 h2 h3

/-! ### The invariants (R30) -/

/-- Settles O49: the reset position is in range, and the reset banks are empty. -/
theorem resetMeetsTheInvariant : Obligations.ResetMeetsTheInvariant where
  scanline_ge := by decide
  scanline_le := by decide
  cycle_le := by decide
  sprite0_zero := rfl
  sprovf_zero := rfl
  alias_zero _ _ := rfl
  nt_zero _ := rfl
  pat_wf := Memory.wf_nil
  nt_wf := Memory.wf_nil
  pal_wf := Memory.wf_nil
  diag_wf := Memory.wf_nil
  pat_below := Memory.below_nil _
  nt_below := Memory.below_nil _
  pal_below := Memory.below_nil _
  diag_below := Memory.below_nil _

theorem patAfter_cases (claimed : Bool) (a : InternalAddr) (v : Byte) (m : Memory) :
    patAfter claimed a v m = m ∨ ∃ k < 8192, patAfter claimed a v m = m.write k v := by
  unfold patAfter
  cases claimed with
  | true => exact .inl rfl
  | false =>
    cases route a with
    | pattern b o => exact .inr ⟨_, patKey_lt b o, rfl⟩
    | nameTable => exact .inl rfl
    | palette i => exact .inl rfl

/-- A router write never reaches an aliased palette cell. -/
theorem palAfter_cases (claimed : Bool) (a : InternalAddr) (v : Byte) (m : Memory) :
    palAfter claimed a v m = m ∨ ∃ k < 32, k ∉ aliasCells ∧ palAfter claimed a v m = m.write k v := by
  unfold palAfter
  cases claimed with
  | true => exact .inl rfl
  | false =>
    cases h : route a with
    | pattern b o => exact .inl rfl
    | nameTable => exact .inl rfl
    | palette i => exact .inr ⟨i.toNat, i.isLt, route_palette_not_alias h, rfl⟩

/-- An operation leaves `PAT` alone or writes one of its keys. -/
theorem exec_pat_cases {i : Instr} {s t : State} (h : exec i s = .next t) :
    t.pat = s.pat ∨ ∃ k < 8192, ∃ v, t.pat = s.pat.write k v := by
  by_cases hi : ∃ d, i = .wrData d
  · obtain ⟨d, rfl⟩ := hi
    rw [exec_wrData_eq, memWrite_eq] at h
    cases h
    exact (patAfter_cases _ _ d s.pat).imp_right fun ⟨k, hk, hw⟩ => ⟨k, hk, d, hw⟩
  · exact .inl ((exec_frame h).banks (not_exists.1 hi)).1

/-- An operation leaves `PAL` alone or writes one of its keys, none of the aliased ones. -/
theorem exec_pal_cases {i : Instr} {s t : State} (h : exec i s = .next t) :
    t.pal = s.pal ∨ ∃ k < 32, k ∉ aliasCells ∧ ∃ v, t.pal = s.pal.write k v := by
  by_cases hi : ∃ d, i = .wrData d
  · obtain ⟨d, rfl⟩ := hi
    rw [exec_wrData_eq, memWrite_eq] at h
    cases h
    exact (palAfter_cases _ _ d s.pal).imp_right fun ⟨k, hk, halias, hw⟩ => ⟨k, hk, halias, d, hw⟩
  · exact .inl ((exec_frame h).banks (not_exists.1 hi)).2

/-- An operation leaves `DIAG` in canonical form and inside its size. -/
theorem exec_diag_canonical {i : Instr} {s t : State} (h : exec i s = .next t) (hwf : s.diag.wf)
    (hbelow : s.diag.below 131072) : t.diag.wf ∧ t.diag.below 131072 := by
  by_cases hi : ∃ ti ps, i = .decode ti ps
  · obtain ⟨ti, ps, rfl⟩ := hi
    rw [exec_decode_eq] at h
    cases h
    dsimp only
    exact ⟨tableDiag_wf hwf ti ps s tileRows s.cart, tableDiag_below hbelow ti ps s tileRows s.cart⟩
  · rw [(exec_frame h).diag (by simpa using hi)]
    exact ⟨hwf, hbelow⟩

/-- An operation leaves the position in range. -/
theorem exec_position_range {i : Instr} {s t : State} (h : exec i s = .next t) (hs : s.Inv) :
    (-1 ≤ t.scanline ∧ t.scanline ≤ 260) ∧ t.cycle ≤ 340 := by
  by_cases hi : i = .tick
  · subst hi
    rw [exec_tick_eq] at h
    cases h
    exact ⟨nextScanline_range hs.scanline_ge hs.scanline_le _, nextCycle_le hs.cycle_le⟩
  · obtain ⟨hline, hcycle, -⟩ := (exec_frame h).position hi
    rw [hline, hcycle]
    exact ⟨⟨hs.scanline_ge, hs.scanline_le⟩, hs.cycle_le⟩

theorem exec_keeps_inv {i : Instr} {s t : State} (hs : s.Inv) (h : exec i s = .next t) : t.Inv := by
  have f := exec_frame h
  obtain ⟨⟨hge, hle⟩, hcycle⟩ := exec_position_range h hs
  obtain ⟨hdiag, hdiagb⟩ := exec_diag_canonical h hs.diag_wf hs.diag_below
  have hpat : t.pat.wf ∧ t.pat.below 8192 := by
    rcases exec_pat_cases h with hp | ⟨k, hk, v, hp⟩ <;> rw [hp]
    · exact ⟨hs.pat_wf, hs.pat_below⟩
    · exact ⟨Memory.write_wf hs.pat_wf k v, Memory.write_below hs.pat_below hk v⟩
  have hpal : t.pal.wf ∧ t.pal.below 32 ∧ ∀ c ∈ aliasCells, t.pal.read c = 0x00 := by
    rcases exec_pal_cases h with hp | ⟨k, hk, halias, v, hp⟩ <;> rw [hp]
    · exact ⟨hs.pal_wf, hs.pal_below, hs.alias_zero⟩
    · refine ⟨Memory.write_wf hs.pal_wf k v, Memory.write_below hs.pal_below hk v, fun c hc => ?_⟩
      have hck : c ≠ k := fun hck => halias (hck ▸ hc)
      rw [Memory.read_write_other _ v hck, hs.alias_zero c hc]
  exact {
    scanline_ge := hge
    scanline_le := hle
    cycle_le := hcycle
    sprite0_zero := f.sprite0.trans hs.sprite0_zero
    sprovf_zero := f.sprovf.trans hs.sprovf_zero
    alias_zero := hpal.2.2
    nt_zero := f.nt ▸ hs.nt_zero
    pat_wf := hpat.1
    nt_wf := f.nt ▸ hs.nt_wf
    pal_wf := hpal.1
    diag_wf := hdiag
    pat_below := hpat.2
    nt_below := f.nt ▸ hs.nt_below
    pal_below := hpal.2.1
    diag_below := hdiagb }

/-- Taking an edge touches the pending edges and the outputs alone, of which the invariants say nothing. -/
theorem beginStep_keeps_inv {s : State} (hs : s.Inv) : (beginStep s).Inv := { hs with }

/-- Settles O50: RESET puts every element at its reset value, an operation keeps the invariants, and taking an edge does. -/
theorem stepKeepsTheInvariant : Obligations.StepKeepsTheInvariant := by
  intro s t hs h
  rcases step_cases h with ⟨e, rest, -, -, rfl⟩ | ⟨w, rest, i, -, -, hx⟩ | rfl
  · exact { resetMeetsTheInvariant with }
  · exact exec_keeps_inv (beginStep_keeps_inv hs) hx
  · exact beginStep_keeps_inv hs

end Sys2Proof.Machine
end

section
/-! SUPPORT. Router accesses at router addresses: one call each, and the cell a write reaches (spec 20_memory.md R46, R47,
R53, R54, R56, R57). -/

namespace Sys2Proof.Machine

theorem maskAddr_eq_ofNat (a : RouterAddr) : maskAddr a = BitVec.ofNat 14 a.toNat := by
  apply BitVec.eq_of_toNat_eq
  rw [toNat_maskAddr, BitVec.toNat_ofNat]

/-- Settles O27: both accesses' explicit forms begin with the one call, and a claimed one ends with it. -/
theorem theCartridgeHasFirstRefusal : Obligations.TheCartridgeHasFirstRefusal := by
  intro s a v
  rw [← maskAddr_eq_ofNat]
  refine ⟨rfl, ?_, fun hc => ⟨?_, memWrite_banks_of_claimed hc a v⟩⟩
  · rw [memWrite_eq]
    rfl
  · exact if_pos hc

/-! ### Which cell an address reaches (R54) -/

/-- The three ranges of the map. -/
theorem range_cases (a : RouterAddr) : a.toNat % 0x4000 ≤ 0x1FFF ∨
    (0x2000 ≤ a.toNat % 0x4000 ∧ a.toNat % 0x4000 ≤ 0x3EFF) ∨ 0x3F00 ≤ a.toNat % 0x4000 := by
  omega

theorem bankRead_pattern (s : State) {a : RouterAddr} (h : a.toNat % 0x4000 ≤ 0x1FFF) :
    bankRead s (maskAddr a) = s.pat.read (a.toNat % 0x4000) := by
  rw [← toNat_maskAddr] at h ⊢
  rw [← patKey_of_addr h, bankRead, route_pattern h]

theorem bankRead_nameTable (s : State) {a : RouterAddr} (h1 : 0x2000 ≤ a.toNat % 0x4000)
    (h2 : a.toNat % 0x4000 ≤ 0x3EFF) : bankRead s (maskAddr a) = 0x00 := by
  rw [bankRead, route_maskAddr_nameTable h1 h2]

theorem bankRead_palette (s : State) {a : RouterAddr} (h : 0x3F00 ≤ a.toNat % 0x4000) :
    bankRead s (maskAddr a) = s.pal.read (palidx (a.setWidth 5)).toNat := by
  rw [bankRead, route_maskAddr_palette h]

/-- An unclaimed write in the pattern range changes the byte of `PAT` whose key is the masked address. -/
theorem memWrite_pattern {s : State} (hc : (nextAnswer s).claim = false) (hp : s.pat.wf) {a : RouterAddr}
    (h : a.toNat % 0x4000 ≤ 0x1FFF) (v : Byte) :
    (∀ k, (memWrite a v s).pat.read k = if k = a.toNat % 0x4000 then v else s.pat.read k) ∧
    (memWrite a v s).pal = s.pal := by
  rw [← toNat_maskAddr] at h ⊢
  obtain ⟨-, hw⟩ := unclaimed_pattern hc hp (route_pattern h) v
  rwa [patKey_of_addr h] at hw

/-- Settles O29: in each range of `a`, which range `b` lies in decides whether the written cell is read. -/
theorem routerWritesOneCell : Obligations.RouterWritesOneCell := by
  intro s a b v hp hq hc
  rcases range_cases a with ha | ⟨ha, ha'⟩ | ha
  · obtain ⟨hpat, hpal⟩ := memWrite_pattern hc hp ha v
    rcases range_cases b with hb | ⟨hb, hb'⟩ | hb
    · have hna : ¬ 0x3F00 ≤ a.toNat % 0x4000 := by omega
      simp [bankRead_pattern _ hb, hpat, ha, hna, eq_comm]
    · rw [bankRead_nameTable _ hb hb', bankRead_nameTable _ hb hb', if_neg (by omega)]
    · rw [bankRead_palette _ hb, bankRead_palette _ hb, hpal, if_neg (by omega)]
  · obtain ⟨-, hpat, hpal⟩ := unclaimed_nameTable hc (route_maskAddr_nameTable ha ha') v
    rw [bankRead_congr hpat hpal, if_neg (by omega)]
  · obtain ⟨-, hpal, hpat⟩ := unclaimed_palette hc hq (route_maskAddr_palette ha) v
    rcases range_cases b with hb | ⟨hb, hb'⟩ | hb
    · rw [bankRead_pattern _ hb, bankRead_pattern _ hb, hpat, if_neg (by omega)]
    · rw [bankRead_nameTable _ hb hb', bankRead_nameTable _ hb hb', if_neg (by omega)]
    · have hna : ¬ a.toNat % 0x4000 ≤ 0x1FFF := by omega
      simp [bankRead_palette _ hb, hpal, ha, hb, hna, BitVec.toNat_inj, eq_comm]

/-- The bank byte at the address of an unclaimed write (R56). -/
theorem bankRead_memWrite_self {s : State} (hp : s.pat.wf) (hq : s.pal.wf) (hc : (nextAnswer s).claim = false)
    (a : RouterAddr) (v : Byte) : bankRead (memWrite a v s) (maskAddr a) =
      if 0x2000 ≤ a.toNat % 0x4000 ∧ a.toNat % 0x4000 ≤ 0x3EFF then 0x00 else v := by
  rw [routerWritesOneCell s a a v hp hq hc]
  simp only [true_and, and_true]
  split_ifs with hcell hlost hlost
  · omega
  · rfl
  · exact bankRead_nameTable s hlost.1 hlost.2
  · omega

/-- Settles O28: an unclaimed read gives the bank byte, and the write reached its cell. -/
theorem routerReadAfterWrite : Obligations.RouterReadAfterWrite := by
  intro s a v hp hq hc hc'
  rw [memReadValue_unclaimed hc', bankRead_memWrite_self hp hq hc]

end Sys2Proof.Machine
end

section
/-! SUPPORT. The port operations one by one and in short runs (spec 40_port_operations.md R101 to R119; 30_encoding.md R85). -/

namespace Sys2Proof.Machine

/-! ### Single operations -/

/-- Settles O10: the six meanings are the no-op read. -/
theorem noOpPortReadsRespondZero : Obligations.NoOpPortReadsRespondZero := by
  intro i hi s
  simp only [List.mem_cons, List.not_mem_nil, or_false] at hi
  rcases hi with rfl | rfl | rfl | rfl | rfl | rfl <;> rfl

/-- The bits of the status byte (R79). -/
theorem getLsbD_statusByte (v z o : Bool) (r : Byte) :
    (statusByte v z o r).getLsbD 7 = v ∧ (statusByte v z o r).getLsbD 6 = z ∧ (statusByte v z o r).getLsbD 5 = o ∧
    ∀ n < 5, (statusByte v z o r).getLsbD n = r.getLsbD n := by
  unfold statusByte
  refine ⟨?_, ?_, ?_, fun n hn => ?_⟩ <;>
    simp only [BitVec.getLsbD_append, BitVec.getLsbD_ofBool, BitVec.getLsbD_extractLsb']
  · simp
  · simp
  · simp
  · simp [hn]

/-- Settles O14: the response is the status byte, zero-extended. -/
theorem rdStatusAssemblesAndClears : Obligations.RdStatusAssemblesAndClears := by
  intro s
  obtain ⟨h7, h6, h5, hlow⟩ := getLsbD_statusByte s.vblank s.sprite0 s.sprovf s.rbuf
  refine ⟨_, exec_rdStatus_eq s, rfl, ?_, ?_, ?_, fun n hn => ?_, fun n hn => ?_⟩ <;>
    simp only [BitVec.getLsbD_setWidth]
  · simpa using h7
  · simpa using h6
  · simpa using h5
  · have : n < 32 := by omega
    simp [hlow n hn, this]
  · simp [BitVec.getLsbD_of_ge _ n hn]
/-- Settles O16: the two halves as numbers. -/
theorem wrAddrStoresOneHalf : Obligations.WrAddrStoresOneHalf := by
  refine fun d s => ⟨_, exec_wrAddr_eq d s, rfl, fun h => ?_, fun h => ?_⟩
  · simp only [h, Bool.false_eq_true, if_false, withHighHalf_toNat]
  · simp only [h, if_true, withLowHalf_toNat]

/-- Settles O20: RD_DATA's explicit form, with the mask and the comparison written out. -/
theorem rdDataLoadsTheBufferAndSteps : Obligations.RdDataLoadsTheBufferAndSteps := by
  refine fun s => ⟨_, _, rfl, rfl, ?_⟩
  rw [exec_rdData_eq, memReadValue, maskAddr_dataPortAddr]
  rfl

/-- Settles O36: IRQ_ACK in explicit form. -/
theorem irqAckClearsIrqAlone : Obligations.IrqAckClearsIrqAlone := fun _ => rfl

/-- Settles O37: at (241, 1) the set clears nothing, and the raise is the only part of TICK that looks at `CTRL`. -/
theorem raisingIrqChangesOneBit : Obligations.RaisingIrqChangesOneBit := by
  intro s c c' hline hcycle hc hc'
  have hset : atVblankSet s.scanline s.cycle = true := (atVblankSet_iff _ _).2 ⟨hline, hcycle⟩
  have hen : ctrlNmiEn c = true := hc
  have hen' : ctrlNmiEn c' = false := hc'
  refine ⟨_, exec_tick_eq _, ?_, ?_, ?_⟩
  · simp [hset, hen']
  · simp [hset]
  · rw [exec_tick_eq]
    simp [hset, hen]

/-! ### What no operation reads -/

/-- Settles O51: only TICK looks at `CTRL`, and only at `NMI_EN`. -/
theorem onlyNmiEnableOfCtrlIsRead : Obligations.OnlyNmiEnableOfCtrlIsRead := by
  intro i s t c h hbit hi
  have hen : ctrlNmiEn c = ctrlNmiEn s.ctrl := hbit
  cases i with
  | wrCtrl d => exact absurd rfl (hi d)
  | wrAddr d => rw [exec_wrAddr_eq] at h ⊢; cases h; rfl
  | wrData d => rw [exec_wrData_eq, memWrite_eq] at h ⊢; cases h; rfl
  | tick => rw [exec_tick_eq] at h ⊢; cases h; simp only [hen]
  | decode ti ps =>
    rw [exec_decode_eq] at h ⊢
    cases h
    rw [tableDiag_congr (s := s) (t := { s with ctrl := c }) rfl rfl,
      tableCalls_congr (s := s) (t := { s with ctrl := c }) rfl rfl]
  | _ => cases h; rfl

/-- Settles O52: no explicit form mentions `NT`. -/
theorem nameTableBanksAreUnreachable : Obligations.NameTableBanksAreUnreachable := by
  intro i s t m h
  refine ⟨(exec_frame h).nt, ?_⟩
  cases i with
  | wrAddr d => rw [exec_wrAddr_eq] at h ⊢; cases h; rfl
  | wrData d => rw [exec_wrData_eq, memWrite_eq] at h ⊢; cases h; rfl
  | tick => rw [exec_tick_eq] at h ⊢; cases h; rfl
  | decode ti ps =>
    rw [exec_decode_eq] at h ⊢
    cases h
    rw [tableDiag_congr (s := s) (t := { s with nt := m }) rfl rfl,
      tableCalls_congr (s := s) (t := { s with nt := m }) rfl rfl]
  | _ => cases h; rfl

/-! ### Runs of commands -/

/-- A run whose next edge presents an operation's canonical word begins with that operation. -/
theorem run_command (k : Nat) {s t : State} {i : Instr} {rest : List Edge} (h : s.edges = commandEdge i :: rest)
    (hx : exec i { s with edges := rest, resp := 0, hooks := [] } = .next t) :
    Host.Core.run core (k + 1) s = Host.Core.run core k t :=
  run_succ k ((step_of_commandEdge h).trans hx)

/-- The address two halves compose, whatever the register held (R85). -/
theorem withLowHalf_withHighHalf_toNat (v : VramAddr) (hi lo : Byte) :
    (withLowHalf (withHighHalf v hi) lo).toNat = (hi.toNat * 256 + lo.toNat) % 2 ^ 15 := by
  rw [withLowHalf_toNat, withHighHalf_toNat]
  omega

/-- Two WR_ADDR from `LATCH = 0`: both halves of `VADDR` are written and nothing else changes (R85). -/
theorem run_addressPair (k : Nat) {s : State} {hi lo : Byte} {rest : List Edge} (hlatch : s.latch = false)
    (h : s.edges = commandEdge (.wrAddr hi) :: commandEdge (.wrAddr lo) :: rest) :
    Host.Core.run core (k + 2) s = Host.Core.run core k ({ s with
      vaddr := withLowHalf (withHighHalf s.vaddr hi) lo, edges := rest, resp := 0, hooks := [] } : State) := by
  rw [run_command (k + 1) h (exec_wrAddr_eq _ _), run_command k rfl (exec_wrAddr_eq _ _)]
  simp [hlatch]

/-- Settles O17: the pair's explicit form, and the composed address as a number. -/
theorem addressPairComposesVaddr : Obligations.AddressPairComposesVaddr := fun s hi lo _ hlatch h =>
  ⟨_, run_addressPair 0 hlatch h, withLowHalf_withHighHalf_toNat s.vaddr hi lo, rfl⟩

/-- Settles O18: RD_STATUS leaves `LATCH = 0`, so the next two writes are a pair of their own. -/
theorem statusReadSplitsAnAddressPair : Obligations.StatusReadSplitsAnAddressPair := by
  intro s a b c rest h
  rw [run_command 3 h (exec_wrAddr_eq _ _), run_command 2 rfl (exec_rdStatus_eq _)]
  exact ⟨_, run_addressPair 0 rfl rfl, rfl, withLowHalf_withHighHalf_toNat _ b c⟩

/-- Settles O19: by induction on the bytes written; and the frame of every other operation has `LATCH` in it. -/
theorem latchAlternatesUnderWrAddr : Obligations.LatchAlternatesUnderWrAddr := by
  refine ⟨fun ds => ?_, fun i s t h hne => ?_⟩
  · induction ds with
    | nil => exact fun s rest h => ⟨s, rfl, h, by simp⟩
    | cons d ds ih =>
      intro s rest h
      obtain ⟨t, hfirst, htedges, htlatch⟩ : ∃ t,
          Host.Core.run core (ds.length + 1) s = Host.Core.run core ds.length t ∧
          t.edges = ds.map (fun d => commandEdge (.wrAddr d)) ++ rest ∧ t.latch = !s.latch :=
        ⟨_, run_command ds.length h (exec_wrAddr_eq d _), rfl, rfl⟩
      obtain ⟨u, hrun, hedges, hlatch⟩ := ih t rest htedges
      refine ⟨u, hfirst.trans hrun, hedges, ?_⟩
      rw [hlatch, htlatch]
      rcases Nat.mod_two_eq_zero_or_one ds.length with hmod | hmod <;> simp [Nat.add_mod, hmod]
  · by_contra hno
    rw [not_or, not_exists] at hno
    exact hne ((exec_frame h).latch hno.1 hno.2)

theorem vaddr_succ_toNat (v : VramAddr) : (v + 1).toNat = (v.toNat + 1) % 2 ^ 15 := nextVaddr_toNat v

/-! ### Data-port reads with no cartridge (R119) -/

theorem dataPortResponse_fresh {v : VramAddr} (h : 0x3F00 ≤ v.toNat) (fresh stale : Byte) :
    dataPortResponse v fresh stale = fresh := if_pos h

theorem dataPortResponse_stale {v : VramAddr} (h : v.toNat < 0x3F00) (fresh stale : Byte) :
    dataPortResponse v fresh stale = stale := if_neg (Nat.not_le.2 h)

/-- The step of an RD_DATA with no cartridge. -/
theorem run_rdData {s : State} {rest : List Edge} (hs : s.NoCart) (h : s.edges = commandEdge .rdData :: rest) :
    ∃ t, (∀ k, Host.Core.run core (k + 1) s = Host.Core.run core k t) ∧ t.edges = rest ∧ t.NoCart ∧ t.pat = s.pat ∧
      t.pal = s.pal ∧ t.vaddr = s.vaddr + 1 ∧ t.rbuf = bankRead s (s.vaddr.setWidth 14) ∧
      t.resp = (dataPortResponse s.vaddr (bankRead s (s.vaddr.setWidth 14)) s.rbuf).setWidth 32 := by
  have hbyte : ∀ t : State, t.NoCart → memReadValue (dataPortAddr t.vaddr) t = bankRead t (t.vaddr.setWidth 14) :=
    fun t ht => by rw [memReadValue_noCart ht, maskAddr_dataPortAddr]
  have hcart : s.cart = [] := hs
  refine ⟨_, fun k => run_command k h (exec_rdData_eq _), rfl, ?_, rfl, rfl, rfl, ?_, ?_⟩
  · simp [State.NoCart, hcart]
  · exact hbyte _ hs
  · exact congrArg (fun b => (dataPortResponse s.vaddr b s.rbuf).setWidth 32)
      (hbyte { s with edges := rest, resp := 0, hooks := [] } hs)

/-- Settles O23: the second read answers by its own address, with its own byte or the one that the first buffered. -/
theorem readDelayOfTheDataPort : Obligations.ReadDelayOfTheDataPort := by
  intro s rest hs h
  obtain ⟨t, hfirst, htedges, ht, htpat, htpal, htv, htrbuf, htresp⟩ := run_rdData hs h
  obtain ⟨u, hsecond, -, -, -, -, -, -, huresp⟩ := run_rdData ht htedges
  refine ⟨t, u, hfirst 0, (hfirst 1).trans (hsecond 0), fun hlt => ?_, fun hlt => ?_, fun heq => ?_, fun hge => ?_⟩
  · rw [htresp, dataPortResponse_stale hlt]
  · have hv : (s.vaddr + 1).toNat < 0x3F00 := by rw [vaddr_succ_toNat]; omega
    rw [huresp, htv, dataPortResponse_stale hv, htrbuf]
  · have hsv : s.vaddr = 0x3EFF := BitVec.eq_of_toNat_eq heq
    have hv : t.vaddr = 0x3F00 := by rw [htv, hsv]; rfl
    rw [huresp, hv, dataPortResponse_fresh (by decide), bankRead_congr htpat htpal]
    rfl
  · rw [htresp, dataPortResponse_fresh hge, htrbuf]
    exact ⟨rfl, rfl⟩

/-! ### The pseudo-operations (R95) -/

/-- `VADDR` after the address pair of `SETADDR a`. -/
theorem setAddr_toNat (v : VramAddr) (a : Nat) :
    (withLowHalf (withHighHalf v (BitVec.ofNat 8 (a / 256))) (BitVec.ofNat 8 a)).toNat = a % 2 ^ 15 := by
  rw [withLowHalf_withHighHalf_toNat, BitVec.toNat_ofNat, BitVec.toNat_ofNat]
  omega

/-- The two steps of `SETADDR a`. -/
theorem run_setAddr {s : State} {a : Nat} {rest : List Edge} (hs : s.NoCart) (hlatch : s.latch = false)
    (h : s.edges = (setAddrOps a).map commandEdge ++ rest) :
    ∃ t, (∀ k, Host.Core.run core (k + 2) s = Host.Core.run core k t) ∧ t.edges = rest ∧ t.NoCart ∧ t.latch = false ∧
      t.pat = s.pat ∧ t.pal = s.pal ∧ t.vaddr.toNat = a % 2 ^ 15 :=
  ⟨_, fun k => run_addressPair k hlatch h, rfl, hs, hlatch, rfl, rfl, setAddr_toNat s.vaddr a⟩

/-- The data port's internal address is the low 14 bits of the address set. -/
theorem setWidth_of_toNat_eq_mod {v : VramAddr} {a : Nat} (h : v.toNat = a % 2 ^ 15) :
    v.setWidth 14 = BitVec.ofNat 14 a := by
  apply BitVec.eq_of_toNat_eq
  rw [BitVec.toNat_setWidth, BitVec.toNat_ofNat, h]
  omega

/-- The step of a WR_DATA with no cartridge: the bank byte at its address is the one written, or 0x00 in the name-table
range. -/
theorem run_wrData {s : State} {v : Byte} {rest : List Edge} (hs : s.NoCart) (hp : s.pat.wf) (hq : s.pal.wf)
    (h : s.edges = commandEdge (.wrData v) :: rest) :
    ∃ t, (∀ k, Host.Core.run core (k + 1) s = Host.Core.run core k t) ∧ t.edges = rest ∧ t.latch = s.latch ∧
      t.vaddr = s.vaddr + 1 ∧ bankRead t (s.vaddr.setWidth 14) =
        if 0x2000 ≤ s.vaddr.toNat % 0x4000 ∧ s.vaddr.toNat % 0x4000 ≤ 0x3EFF then 0x00 else v := by
  refine ⟨_, fun k => run_command k h (exec_wrData_eq v _), rfl, rfl, rfl, ?_⟩
  have hc : (nextAnswer { s with edges := rest, resp := 0, hooks := [] }).claim = false := by
    rw [nextAnswer_of_noCart (by exact hs)]
    rfl
  rw [← maskAddr_dataPortAddr, ← toNat_dataPortAddr]
  exact bankRead_memWrite_self (s := { s with edges := rest, resp := 0, hooks := [] }) hp hq hc (dataPortAddr s.vaddr) v

/-- Settles O55: the address pair, then the write through the router. -/
theorem pokeStoresTheByte : Obligations.PokeStoresTheByte := by
  intro s a v rest hwf hs hlatch hp hq h
  obtain ⟨t, hpair, htedges, ht, htlatch, htpat, htpal, htv⟩ := run_setAddr (rest := commandEdge _ :: rest) hs hlatch h
  obtain ⟨u, hwrite, huedges, hulatch, huv, hbyte⟩ := run_wrData ht (htpat ▸ hp) (htpal ▸ hq) htedges
  refine ⟨u, (hpair 1).trans (hwrite 0), huedges, hulatch.trans htlatch, ?_, ?_⟩
  · rw [huv, vaddr_succ_toNat, htv]
    omega
  · rw [← setWidth_of_toNat_eq_mod htv, hbyte, htv, Nat.mod_mod_of_dvd _ (by decide)]

theorem traceEdges_peek (s : State) (a : Nat) : traceEdges s (.peek a) = (setAddrOps a).map commandEdge ++
    (if a % 2 ^ 15 < 0x3F00 then [commandEdge .rdData, commandEdge .rdData] else [commandEdge .rdData]) := by
  simp only [traceEdges, traceOps, peekOps, List.map_append]
  congr 1
  exact apply_ite (List.map commandEdge) ..

/-- Settles O56: the address pair, then one read from 0x3F00 on, and below it a second read that answers with the byte the
first one buffered. -/
theorem peekReturnsTheByte : Obligations.PeekReturnsTheByte := by
  intro s a rest hwf hs hlatch h
  have hhole : a % 2 ^ 15 ≠ 0x3EFF := by
    simp only [TraceOp.wf, peekHole, Bool.and_eq_true, bne_iff_ne] at hwf
    exact hwf.2
  rw [traceEdges_peek, List.append_assoc] at h
  obtain ⟨t, hpair, htedges, ht, -, htpat, htpal, htv⟩ := run_setAddr hs hlatch h
  have hbyte : bankRead t (t.vaddr.setWidth 14) = bankRead s (BitVec.ofNat 14 a) := by
    rw [setWidth_of_toNat_eq_mod htv, bankRead_congr htpat htpal]
  rw [traceEdges_peek]
  by_cases ha : a % 2 ^ 15 < 0x3F00
  · rw [if_pos ha] at htedges ⊢
    obtain ⟨u, hfirst, huedges, hu, hupat, hupal, huv, hurbuf, -⟩ := run_rdData ht htedges
    obtain ⟨w, hsecond, hwedges, -, hwpat, hwpal, hwv, -, hwresp⟩ := run_rdData hu huedges
    have hnext : u.vaddr.toNat = a % 2 ^ 15 + 1 := by
      rw [huv, vaddr_succ_toNat, htv]
      omega
    refine ⟨w, (hpair 2).trans ((hfirst 1).trans (hsecond 0)), hwedges, ?_, (hwpat.trans hupat).trans htpat,
      (hwpal.trans hupal).trans htpal, ?_⟩
    · rw [hwresp, dataPortResponse_stale (by omega), hurbuf, hbyte]
    · rw [hwv, vaddr_succ_toNat, hnext, if_pos (by omega)]
      omega
  · rw [if_neg ha] at htedges ⊢
    obtain ⟨u, hread, huedges, -, hupat, hupal, huv, -, huresp⟩ := run_rdData ht htedges
    refine ⟨u, (hpair 1).trans (hread 0), huedges, ?_, hupat.trans htpat, hupal.trans htpal, ?_⟩
    · rw [huresp, dataPortResponse_fresh (by omega), hbyte]
    · rw [huv, vaddr_succ_toNat, htv, if_neg (by omega)]
      omega

end Sys2Proof.Machine
end

section
/-! SUPPORT. Runs of TICKs: the position, the vertical-blank window and the interrupt in closed form (spec 41_timing_fsm.md
R130 to R135; 30_encoding.md R95). -/

namespace Sys2Proof.Machine

/-! ### One TICK of a run -/

/-- The state after a TICK, with the edges that are still to come (R130). -/
def ticked (s : State) (rest : List Edge) : State := { s with
  vblank := (s.vblank && !atVblankClear s.scanline s.cycle) || atVblankSet s.scanline s.cycle
  irq := s.irq || (atVblankSet s.scanline s.cycle && ctrlNmiEn s.ctrl)
  scanline := nextScanline s.scanline s.cycle
  cycle := nextCycle s.cycle
  ticks := s.ticks + 1
  edges := rest
  resp := (BitVec.ofBool (frameDone s.scanline s.cycle)).setWidth 32
  hooks := [] }

theorem step_tick {s : State} {rest : List Edge} (h : s.edges = commandEdge .tick :: rest) :
    step s = .next (ticked s rest) := (step_of_commandEdge h).trans (exec_tick_eq _)

/-- What holds before any TICK and is kept by each one holds after `n` of them. -/
theorem run_ticks {P : Nat → State → Prop} {s : State} (h0 : P 0 s)
    (hnext : ∀ n t rest, P n t → P (n + 1) (ticked t rest)) (n : Nat) (rest : List Edge)
    (h : s.edges = List.replicate n (commandEdge .tick) ++ rest) :
    ∃ t, Host.Core.run core n s = .next t ∧ t.edges = rest ∧ P n t := by
  induction n generalizing rest with
  | zero => exact ⟨s, rfl, h, h0⟩
  | succ n ih =>
    rw [List.replicate_succ', List.append_assoc] at h
    obtain ⟨t, hrun, hedges, ht⟩ := ih _ h
    exact ⟨_, run_snoc hrun (step_tick hedges), rfl, hnext n t rest ht⟩

/-! ### The position in closed form (R135) -/

/-- `SCANLINE` at the `n`-th place of the cycle of frames. -/
def placeLine (n : Nat) : Int := ((n % 89342 / 341 : Nat) : Int) - 1

/-- `CYCLE` at the `n`-th place of the cycle of frames. -/
def placeCycle (n : Nat) : Nat := n % 89342 % 341

theorem nextScanline_place (n : Nat) : nextScanline (placeLine n) (placeCycle n) = placeLine (n + 1) := by
  unfold nextScanline placeLine placeCycle cyclesPerLine scanlineEnd
  split_ifs <;> omega

theorem nextCycle_place (n : Nat) : nextCycle (placeCycle n) = placeCycle (n + 1) := by
  unfold nextCycle placeCycle cyclesPerLine
  split_ifs <;> omega

theorem frameDone_place (n : Nat) : frameDone (placeLine n) (placeCycle n) = true ↔ (n + 1) % 89342 = 0 := by
  rw [frameDone_iff, placeLine, placeCycle]
  omega

theorem atVblankClear_place (n : Nat) : atVblankClear (placeLine n) (placeCycle n) = true ↔ n % 89342 = 1 := by
  rw [atVblankClear_iff, placeLine, placeCycle]
  omega

theorem atVblankSet_place (n : Nat) : atVblankSet (placeLine n) (placeCycle n) = true ↔ n % 89342 = 82523 := by
  rw [atVblankSet_iff, placeLine, placeCycle]
  omega

/-- After `n` TICKs from place `p`: the position, `TICKS`, `CTRL`, and the last response. -/
structure TickedFrom (p : Nat) (s : State) (n : Nat) (t : State) : Prop where
  scanline : t.scanline = placeLine (p + n)
  cycle : t.cycle = placeCycle (p + n)
  ticks : t.ticks = s.ticks + n
  ctrl : t.ctrl = s.ctrl
  resp : 0 < n → t.resp = if (p + n) % 89342 = 0 then 1 else 0

theorem TickedFrom.next {p : Nat} {s : State} {n : Nat} {t : State} (h : TickedFrom p s n t) (rest : List Edge) :
    TickedFrom p s (n + 1) (ticked t rest) where
  scanline := by rw [ticked, h.scanline, h.cycle, nextScanline_place]; rfl
  cycle := by rw [ticked, h.cycle, nextCycle_place]; rfl
  ticks := by rw [ticked, h.ticks]; rfl
  ctrl := h.ctrl
  resp _ := by
    have hdone := frameDone_place (p + n)
    rw [← h.scanline, ← h.cycle] at hdone
    simp only [ticked, ← Nat.add_assoc, ← hdone]
    cases frameDone t.scanline t.cycle <;> rfl

theorem TickedFrom.zero {p : Nat} {s : State} (hline : s.scanline = placeLine p) (hcycle : s.cycle = placeCycle p) :
    TickedFrom p s 0 s := ⟨hline, hcycle, rfl, rfl, fun h => absurd h (Nat.lt_irrefl 0)⟩

/-- Settles O31: the closed form holds at (−1, 0), and each TICK moves it one place. -/
theorem positionAfterManyTicks : Obligations.PositionAfterManyTicks := by
  intro n s rest hline hcycle h
  have h0 : TickedFrom 0 s 0 s := TickedFrom.zero hline hcycle
  obtain ⟨t, hrun, hedges, ht⟩ := run_ticks h0 (fun _ _ rest ht => ht.next rest) n rest h
  have hline := ht.scanline
  have hcycle := ht.cycle
  have hresp := ht.resp
  rw [Nat.zero_add] at hline hcycle hresp
  exact ⟨t, hrun, hedges, hline, hcycle, ht.ticks, hresp⟩

/-! ### The vertical-blank window (R135, R197) -/

/-- After `n` TICKs from (−1, 0): in the window `VBLANK` is 1, and from its first TICK on an enabled `IRQ` is. -/
structure VblankFrom (s : State) (n : Nat) (t : State) : Prop extends TickedFrom 0 s n t where
  vblank : t.vblank = true ↔ 82524 ≤ n ∧ (n - 82524) % 89342 < 6820
  irq : t.irq = true ↔ s.irq = true ∨ (s.ctrl.getLsbD 7 = true ∧ 82524 ≤ n)

theorem VblankFrom.next {s : State} {n : Nat} {t : State} (h : VblankFrom s n t) (rest : List Edge) :
    VblankFrom s (n + 1) (ticked t rest) where
  toTickedFrom := h.toTickedFrom.next rest
  vblank := by
    simp only [ticked, h.scanline, h.cycle, Nat.zero_add, Bool.or_eq_true, Bool.and_eq_true, Bool.not_eq_true',
      ← Bool.not_eq_true, atVblankClear_place, atVblankSet_place, h.vblank]
    omega
  irq := by
    simp only [ticked, h.scanline, h.cycle, Nat.zero_add, Bool.or_eq_true, Bool.and_eq_true, atVblankSet_place, h.irq,
      h.ctrl, ctrlNmiEn]
    have hlater : 82524 ≤ n + 1 ↔ 82524 ≤ n ∨ n % 89342 = 82523 := by omega
    rw [hlater]
    tauto

/-- Settles O32: both hold at (−1, 0), and the TICKs at the two tests' places open and close the window. -/
theorem vblankWindowAfterManyTicks : Obligations.VblankWindowAfterManyTicks := by
  intro n s rest hline hcycle hvblank h
  have h0 : VblankFrom s 0 s := ⟨TickedFrom.zero hline hcycle, by simp [hvblank], by simp⟩
  obtain ⟨t, hrun, -, ht⟩ := run_ticks h0 (fun _ _ rest ht => ht.next rest) n rest h
  exact ⟨t, hrun, ht.vblank, ht.irq⟩

/-! ### FRAME (R95) -/

/-- A position in range is the position at its place. -/
theorem position_eq_place {s : State} (hs : s.Inv) : ∃ p < 89342, s.scanline = placeLine p ∧ s.cycle = placeCycle p ∧
    ticksToFrameEnd s.scanline s.cycle = 89342 - p := by
  have hge := hs.scanline_ge
  have hle := hs.scanline_le
  have hcycle := hs.cycle_le
  refine ⟨(s.scanline + 1).toNat * 341 + s.cycle, by omega, ?_, ?_, rfl⟩
  · rw [placeLine]; omega
  · rw [placeCycle]; omega

theorem traceEdges_frame (s : State) :
    traceEdges s .frame = List.replicate (ticksToFrameEnd s.scanline s.cycle) (commandEdge .tick) :=
  List.map_replicate

/-- Settles O33: the TICKs of FRAME end at place 89342, and the places before it answer no `frame_done`. -/
theorem frameEndsWithFrameDone : Obligations.FrameEndsWithFrameDone := by
  intro s hs h
  obtain ⟨p, hp, hline, hcycle, hleft⟩ := position_eq_place hs
  rw [traceEdges_frame, hleft] at h
  have hlen : s.edges.length = 89342 - p := by rw [h, List.length_replicate]
  have hrun : ∀ n ≤ 89342 - p, ∃ t, Host.Core.run core n s = .next t ∧ TickedFrom p s n t := by
    intro n hn
    have hsplit : s.edges = List.replicate n (commandEdge .tick) ++
        List.replicate (89342 - p - n) (commandEdge .tick) := by
      rw [h, List.replicate_append_replicate, Nat.add_sub_cancel' hn]
    obtain ⟨t, hrun, -, ht⟩ := run_ticks (TickedFrom.zero hline hcycle) (fun _ _ rest ht => ht.next rest) n _ hsplit
    exact ⟨t, hrun, ht⟩
  rw [hlen]
  refine ⟨Nat.sub_le _ _, ?_, fun n h0 hn => ?_⟩
  · obtain ⟨t, hrun, ht⟩ := hrun _ (Nat.le_refl _)
    have hend : p + (89342 - p) = 89342 := by omega
    have htline := ht.scanline
    have htcycle := ht.cycle
    have htresp := ht.resp (by omega)
    rw [hend] at htline htcycle htresp
    exact ⟨t, hrun, htline, htcycle, htresp⟩
  · obtain ⟨t, hrun, ht⟩ := hrun n hn.le
    exact ⟨t, hrun, (ht.resp h0).trans (if_neg (by omega))⟩

end Sys2Proof.Machine
end

section
/-! SUPPORT. The tile unpacker, COLOR, the calls of DECODE and the outputs of the boundary (spec 42_decoder.md R141 to R150;
30_encoding.md R70). -/

namespace Sys2Proof.Machine

/-- Settles O40: each lane of the row as a number. -/
theorem unpackRowCombinesThePlanes : Obligations.UnpackRowCombinesThePlanes := by
  refine fun lo hi => ⟨by simp [unpackRow], fun col hcol => ⟨unpackLane lo hi col, ?_, unpackLane_toNat lo hi col⟩⟩
  simp [unpackRow, hcol]

/-! ### COLOR (R88, R143, R144) -/

theorem maskAddr_colorAddr (ci : BitVec 2) (ps : BitVec 3) :
    maskAddr (colorAddr ci ps) = BitVec.ofNat 14 (0x3F00 + ps.toNat * 4 + ci.toNat) := by
  rw [maskAddr_eq_ofNat, colorAddr_toNat]

/-- The table index is the byte's low six bits (R142). -/
theorem lookup_eq (b : Byte) : lookup b = Config.palette (b.setWidth 6) := by
  rw [lookup, BitVec.setWidth_eq_extractLsb' (by decide)]

/-- A pixel as a number: red lowest, alpha on top (R143). -/
theorem rgba_eq_ofNat (p : Rgb) :
    rgba p = BitVec.ofNat 32 (p.r.toNat + p.g.toNat * 2 ^ 8 + p.b.toNat * 2 ^ 16 + 0xFF * 2 ^ 24) := by
  have := p.r.isLt; have := p.g.isLt; have := p.b.isLt
  apply BitVec.eq_of_toNat_eq
  simp only [rgba, alphaByte, toNat_append_add, BitVec.ofNat_eq_ofNat, BitVec.toNat_ofNat]
  omega

/-- Settles O41: COLOR's explicit form, with the address and the pixel as numbers. -/
theorem colorRespondsThePalettePixel : Obligations.ColorRespondsThePalettePixel := by
  refine fun ci ps s => ⟨_, _, _, rfl, rfl, rfl, ?_⟩
  rw [exec_color_eq, rgba_eq_ofNat, lookup_eq, memReadValue, maskAddr_colorAddr, BitVec.ofNat_toNat]
  rfl

/-- Colour index 0 of palette `ps` below 4 and of palette `ps + 4` have the same aliased cell (R53, R88). -/
theorem palidx_colorAddr_zero {ps : BitVec 3} (h : ps.toNat < 4) :
    (palidx ((colorAddr 0 ps).setWidth 5)).toNat = 4 * ps.toNat ∧
    (palidx ((colorAddr 0 (ps + 4)).setWidth 5)).toNat = 4 * ps.toNat := by
  revert ps; decide

/-- COLOR with no cartridge answers with the pixel of its palette cell. -/
theorem exec_color_noCart {s : State} (hs : s.NoCart) (ci : BitVec 2) (ps : BitVec 3) :
    ∃ t, exec (.color ci ps) s = .next t ∧
      t.resp = rgba (Config.palette ((s.pal.read (palidx ((colorAddr ci ps).setWidth 5)).toNat).setWidth 6)) := by
  refine ⟨_, exec_color_eq ci ps s, ?_⟩
  dsimp only
  rw [memReadValue_noCart hs, bankRead, route_colorAddr, lookup_eq]

/-- Settles O42: both addresses reach the cell `PAL[4 × ps]`. -/
theorem colorZeroSharesTheAliasedCell : Obligations.ColorZeroSharesTheAliasedCell := by
  intro s ps hs h
  obtain ⟨hlow, hhigh⟩ := palidx_colorAddr_zero h
  obtain ⟨t, ht, htresp⟩ := exec_color_noCart hs 0 ps
  obtain ⟨u, hu, huresp⟩ := exec_color_noCart hs 0 (ps + 4)
  rw [hlow] at htresp
  rw [hhigh] at huresp
  exact ⟨t, u, ht, hu, huresp.trans htresp.symm, htresp⟩

/-! ### The outputs (R70) -/

/-- Settles O54: the position in range fits the ten and the nine bits. -/
theorem outputsShowTheState : Obligations.OutputsShowTheState := by
  refine ⟨fun _ => rfl, fun s hs => ⟨?_, ?_⟩, by decide, fun _ _ _ => rfl⟩
  · have hge := hs.scanline_ge
    have hle := hs.scanline_le
    exact BitVec.toInt_ofInt_eq_self (by decide) (by omega) (by omega)
  · have hle := hs.cycle_le
    rw [dbgCycle, BitVec.toNat_ofNat]
    omega

end Sys2Proof.Machine
end

section
/-! SUPPORT. DECODE call by call and pixel by pixel (spec 42_decoder.md R146 to R150; 20_memory.md R45). -/

namespace Sys2Proof.Machine

/-! ### What DECODE leaves alone, and the answers its calls get (R146, R150) -/

/-- DECODE's next state by the fields that DECODE reads or writes. -/
theorem exec_decode_next (ti : BitVec 1) (ps : BitVec 3) (s : State) : ∃ t, exec (.decode ti ps) s = .next t ∧
    t.diag = tableDiag ti ps s tileRows s.cart s.diag ∧ t.pat = s.pat ∧ t.pal = s.pal ∧ t.cart = s.cart.drop 20480 ∧
    t.hooks = (tableCalls ti ps s tileRows s.cart).reverse ++ s.hooks :=
  ⟨_, exec_decode_eq ti ps s, by dsimp only, rfl, rfl, rfl, by dsimp only⟩

/-- DECODE of one view leaves every byte outside the view alone. -/
theorem read_tableDiag_outside {ti : BitVec 1} {k : Nat} (hk : k < ti.toNat * 65536 ∨ (ti.toNat + 1) * 65536 ≤ k)
    (ps : BitVec 3) (s : State) (js : List TileRow) (cart : List CartAnswer) (m : Memory) :
    (tableDiag ti ps s js cart m).read k = m.read k := by
  refine read_tableDiag_other fun j _ col hcol => ?_
  have := le_columnKey ti j col
  have := columnKey_lt ti j hcol
  omega

/-- Settles O43: DECODE's explicit form; the other view lies outside the one written. -/
theorem decodeWritesOneViewAlone : Obligations.DecodeWritesOneViewAlone := by
  intro ti ps s
  refine ⟨_, tableCalls ti ps s tileRows s.cart, exec_decode_eq ti ps s, by simp, by dsimp only, fun n hn => ?_,
    fun k hk => ?_⟩
  · exact (tableCalls_answer (List.getElem?_eq_getElem hn)).2
  · dsimp only
    refine read_tableDiag_outside ?_ ps s tileRows s.cart s.diag
    have hti : ti = 0 ∨ ti = 1 := by revert ti; decide
    rcases hti with rfl | rfl
    · right; simp [diagKey]
    · left; simpa [diagKey] using hk

/-! ### The calls of a tile row (R145, R150) -/

theorem tileRowAt_toNat {j : Nat} (hj : j < 2048) : (tileRowAt j).ty.toNat = j / 128 ∧
    (tileRowAt j).tx.toNat = j / 8 % 16 ∧ (tileRowAt j).row.toNat = j % 8 := by
  simp only [tileRowAt, BitVec.toNat_ofNat]
  omega

/-- Below 0x4000 the mask keeps an address. -/
theorem toNat_maskAddr_of_lt {a : RouterAddr} (h : a.toNat < 0x4000) : (maskAddr a).toNat = a.toNat := by
  rw [toNat_maskAddr, Nat.mod_eq_of_lt h]

theorem toNat_maskAddr_lowPlaneAddr (ti : BitVec 1) {j : Nat} (hj : j < 2048) :
    (maskAddr (lowPlaneAddr ti (tileRowAt j))).toNat =
      ti.toNat * 0x1000 + j / 128 * 256 + j / 8 % 16 * 16 + j % 8 := by
  obtain ⟨hty, htx, hrow⟩ := tileRowAt_toNat hj
  have hti := ti.isLt
  have h := lowPlaneAddr_toNat ti (tileRowAt j)
  rw [hty, htx, hrow] at h
  rw [toNat_maskAddr_of_lt (by omega), h]

theorem toNat_maskAddr_highPlaneAddr (ti : BitVec 1) {j : Nat} (hj : j < 2048) :
    (maskAddr (highPlaneAddr ti (tileRowAt j))).toNat =
      ti.toNat * 0x1000 + j / 128 * 256 + j / 8 % 16 * 16 + j % 8 + 8 := by
  obtain ⟨hty, htx, hrow⟩ := tileRowAt_toNat hj
  have hti := ti.isLt
  have h := highPlaneAddr_toNat ti (tileRowAt j)
  rw [hty, htx, hrow] at h
  rw [toNat_maskAddr_of_lt (by omega), h]

theorem toNat_maskAddr_colorAddr (ci : BitVec 2) (ps : BitVec 3) :
    (maskAddr (colorAddr ci ps)).toNat = 0x3F00 + ps.toNat * 4 + ci.toNat := by
  have := ci.isLt
  have := ps.isLt
  rw [toNat_maskAddr_of_lt (by rw [colorAddr_toNat]; omega), colorAddr_toNat]

section
variable (ti : BitVec 1) (ps : BitVec 3) (s : State) {cart : List CartAnswer} {j : Nat} (hj : j < 2048)
include hj

/-- The low-plane call of tile row `j`. -/
theorem decodeCalls_low : (tableCalls ti ps s tileRows cart)[10 * j]? =
    some (callAt (cart.drop (10 * j)) 0 (lowPlaneAddr ti (tileRowAt j))) :=
  tableCalls_getElem? (k := 0) (tileRows_getElem? hj) (by decide)

/-- The high-plane call of tile row `j`. -/
theorem decodeCalls_high : (tableCalls ti ps s tileRows cart)[10 * j + 1]? =
    some (callAt (cart.drop (10 * j)) 1 (highPlaneAddr ti (tileRowAt j))) :=
  tableCalls_getElem? (k := 1) (tileRows_getElem? hj) (by decide)

/-- The palette call of column `col` of tile row `j`. -/
theorem decodeCalls_column {col : Nat} (hcol : col < 8) : (tableCalls ti ps s tileRows cart)[10 * j + 2 + col]? =
    some (callAt (cart.drop (10 * j)) (2 + col) (colorAddr (rowIndex ti s (cart.drop (10 * j)) (tileRowAt j) col) ps)) := by
  rw [Nat.add_assoc, tableCalls_getElem? (tileRows_getElem? hj) (by omega), rowCalls_column _ _ _ _ _ hcol]

end

/-- Settles O44: the three kinds of call of a tile row, with their addresses as numbers. -/
theorem decodeReadsInLoopOrder : Obligations.DecodeReadsInLoopOrder := by
  intro ti ps s
  obtain ⟨t, ht, -, -, -, -, hth⟩ := exec_decode_next ti ps s
  refine ⟨t, _, ht, hth, by simp, fun j hj col hcol => ⟨_, _, _, decodeCalls_low ti ps s hj, decodeCalls_high ti ps s hj,
    decodeCalls_column ti ps s hj hcol, rfl, rfl, rfl, toNat_maskAddr_lowPlaneAddr ti hj, ?_, ?_⟩⟩
  · exact (toNat_maskAddr_highPlaneAddr ti hj).trans (congrArg (· + 8) (toNat_maskAddr_lowPlaneAddr ti hj).symm)
  · refine (toNat_maskAddr_colorAddr _ ps).trans (congrArg _ ?_)
    exact unpackLane_toNat _ _ col

/-! ### The pixels of a view (R45, R149) -/

/-- The number of the tile row that pixel (x, y) lies in. -/
def pixelRow (x y : Nat) : Nat := y / 8 * 128 + x / 8 * 8 + y % 8

theorem pixelRow_lt {x y : Nat} (hx : x < 128) (hy : y < 128) : pixelRow x y < 2048 := by
  unfold pixelRow; omega

/-- The tile row of a pixel, as coordinates. -/
theorem tileRowAt_pixelRow {x y : Nat} (hx : x < 128) (hy : y < 128) : (tileRowAt (pixelRow x y)).ty.toNat = y / 8 ∧
    (tileRowAt (pixelRow x y)).tx.toNat = x / 8 ∧ (tileRowAt (pixelRow x y)).row.toNat = y % 8 := by
  obtain ⟨hty, htx, hrow⟩ := tileRowAt_toNat (pixelRow_lt hx hy)
  rw [hty, htx, hrow, pixelRow]
  omega

theorem columnKey_pixelRow (ti : BitVec 1) {x y : Nat} (hx : x < 128) (hy : y < 128) :
    columnKey ti (tileRowAt (pixelRow x y)) (x % 8) = diagKey ti ((y * 128 + x) * 4) := by
  obtain ⟨hty, htx, hrow⟩ := tileRowAt_pixelRow hx hy
  rw [columnKey_eq, hty, htx, hrow, diagKey]
  omega

/-- A byte of a pixel after DECODE is the one its tile row's column gave it. -/
theorem read_decoded (ti : BitVec 1) (ps : BitVec 3) {s : State} (hs : s.diag.wf) {x y c : Nat} (hx : x < 128)
    (hy : y < 128) (hc : c < 4) :
    (tableDiag ti ps s tileRows s.cart s.diag).read (diagKey ti ((y * 128 + x) * 4 + c)) =
      pixelByte (rowPixel ti ps s (s.cart.drop (10 * pixelRow x y)) (tileRowAt (pixelRow x y)) (x % 8)) c := by
  have hkey : diagKey ti ((y * 128 + x) * 4 + c) = columnKey ti (tileRowAt (0 + pixelRow x y)) (x % 8) + c := by
    rw [Nat.zero_add, columnKey_pixelRow ti hx hy, diagKey, diagKey, Nat.add_assoc]
  rw [hkey, tileRows_eq, List.range_eq_range',
    read_tableDiag_self ti ps s (by omega) hc hs (by omega) (pixelRow_lt hx hy), Nat.zero_add]

/-- The four bytes of a pixel whose colour is known. -/
theorem read_decoded_of_rowPixel (ti : BitVec 1) (ps : BitVec 3) {s : State} (hs : s.diag.wf) {x y : Nat} (hx : x < 128)
    (hy : y < 128) {p : Rgb}
    (hp : rowPixel ti ps s (s.cart.drop (10 * pixelRow x y)) (tileRowAt (pixelRow x y)) (x % 8) = rgba p) :
    (tableDiag ti ps s tileRows s.cart s.diag).read (diagKey ti ((y * 128 + x) * 4)) = p.r ∧
    (tableDiag ti ps s tileRows s.cart s.diag).read (diagKey ti ((y * 128 + x) * 4 + 1)) = p.g ∧
    (tableDiag ti ps s tileRows s.cart s.diag).read (diagKey ti ((y * 128 + x) * 4 + 2)) = p.b ∧
    (tableDiag ti ps s tileRows s.cart s.diag).read (diagKey ti ((y * 128 + x) * 4 + 3)) = 0xFF := by
  obtain ⟨hr, hg, hb, ha⟩ := pixelByte_rgba p
  have hbyte : ∀ c < 4, (tableDiag ti ps s tileRows s.cart s.diag).read (diagKey ti ((y * 128 + x) * 4 + c)) =
      pixelByte (rgba p) c := fun c hc => hp ▸ read_decoded ti ps hs hx hy hc
  exact ⟨(hbyte 0 (by decide)).trans hr, (hbyte 1 (by decide)).trans hg, (hbyte 2 (by decide)).trans hb,
    (hbyte 3 (by decide)).trans ha⟩

/-- Settles O57: the pixel's bytes come from the palette call of its own column. -/
theorem decodedPixelFromItsOwnCall : Obligations.DecodedPixelFromItsOwnCall := by
  intro ti ps s hs
  obtain ⟨t, ht, htd, -, -, -, hth⟩ := exec_decode_next ti ps s
  refine ⟨t, _, ht, hth, by simp, fun x hx y hy =>
    ⟨_, _, decodeCalls_column ti ps s (pixelRow_lt hx hy) (Nat.mod_lt x (by decide)), rfl, ?_⟩⟩
  rw [htd]
  exact read_decoded_of_rowPixel ti ps hs hx hy (congrArg rgba (lookup_eq _))

/-! ### A cartridge that answers the same for the same address (R147, R148) -/

/-- The pixel of a column of a tile row when every read of an address gives the same byte. -/
def steadyPixel (f : InternalAddr → Option Byte) (s : State) (ti : BitVec 1) (ps : BitVec 3) (j : TileRow) (col : Nat) :
    Resp :=
  rgba (lookup (steadyRead f s (colorAddr
    (unpackLane (steadyRead f s (lowPlaneAddr ti j)) (steadyRead f s (highPlaneAddr ti j)) col) ps)))

/-- A router read whose call is among steadily answered ones. -/
theorem readAt_of_steady {f : InternalAddr → Option Byte} {calls : List HookCall} (hf : SteadyReads f calls) {s : State}
    {cart : List CartAnswer} {n k : Nat} {a : RouterAddr} (h : calls[k]? = some (callAt cart n a)) :
    readAt s cart n a = steadyRead f s a := by
  have hbyte : (cart.getD n unclaimed).byte = f (maskAddr a) := (hf _ (List.mem_of_getElem? h)).2
  rw [readAt, hbyte, steadyRead]

/-- Steady answers make every column's pixel the steady one. -/
theorem rowPixel_of_steady {f : InternalAddr → Option Byte} {ti : BitVec 1} {ps : BitVec 3} {s : State}
    (hf : SteadyReads f (tableCalls ti ps s tileRows s.cart)) {j col : Nat} (hj : j < 2048) (hcol : col < 8) :
    rowPixel ti ps s (s.cart.drop (10 * j)) (tileRowAt j) col = steadyPixel f s ti ps (tileRowAt j) col := by
  rw [rowPixel, readAt_of_steady hf (decodeCalls_column ti ps s hj hcol), rowIndex,
    readAt_of_steady hf (decodeCalls_low ti ps s hj), readAt_of_steady hf (decodeCalls_high ti ps s hj), steadyPixel]

theorem routerAddr_eq_ofNat {a : RouterAddr} {n : Nat} (h : a.toNat = n) : a = BitVec.ofNat 16 n := by
  rw [← h, BitVec.ofNat_toNat, BitVec.setWidth_eq]

theorem lowPlaneAddr_pixelRow (ti : BitVec 1) {x y : Nat} (hx : x < 128) (hy : y < 128) :
    lowPlaneAddr ti (tileRowAt (pixelRow x y)) =
      BitVec.ofNat 16 (ti.toNat * 0x1000 + y / 8 * 256 + x / 8 * 16 + y % 8) := by
  obtain ⟨hty, htx, hrow⟩ := tileRowAt_pixelRow hx hy
  exact routerAddr_eq_ofNat (by rw [lowPlaneAddr_toNat, hty, htx, hrow])

theorem highPlaneAddr_pixelRow (ti : BitVec 1) {x y : Nat} (hx : x < 128) (hy : y < 128) :
    highPlaneAddr ti (tileRowAt (pixelRow x y)) =
      BitVec.ofNat 16 (ti.toNat * 0x1000 + y / 8 * 256 + x / 8 * 16 + y % 8 + 8) := by
  obtain ⟨hty, htx, hrow⟩ := tileRowAt_pixelRow hx hy
  exact routerAddr_eq_ofNat (by rw [highPlaneAddr_toNat, hty, htx, hrow])

/-- Settles O45: the pixel is the steady one of its tile row's column, with its three addresses as numbers. -/
theorem decodedPixelClosedForm : Obligations.DecodedPixelClosedForm := by
  intro ti ps s hs
  obtain ⟨t, ht, htd, -, -, -, hth⟩ := exec_decode_next ti ps s
  refine ⟨t, _, ht, hth, fun f hf x hx y hy => ⟨_, _, _, _, _, rfl, rfl, rfl, rfl, rfl, ?_⟩⟩
  rw [htd]
  refine read_decoded_of_rowPixel ti ps hs hx hy ?_
  rw [rowPixel_of_steady hf (pixelRow_lt hx hy) (by omega), steadyPixel, lookup_eq, lowPlaneAddr_pixelRow ti hx hy,
    highPlaneAddr_pixelRow ti hx hy, routerAddr_eq_ofNat (colorAddr_toNat _ ps), unpackLane_toNat]

/-! ### One DECODE after another (R148) -/

theorem steadyPixel_congr {s t : State} (hp : t.pat = s.pat) (hq : t.pal = s.pal) (f : InternalAddr → Option Byte)
    (ti : BitVec 1) (ps : BitVec 3) (j : TileRow) (col : Nat) :
    steadyPixel f t ti ps j col = steadyPixel f s ti ps j col := by
  simp only [steadyPixel, steadyRead, bankRead_congr hp hq]

/-- Every byte of a view under steady answers. -/
theorem read_decoded_of_steady {f : InternalAddr → Option Byte} {ti : BitVec 1} {ps : BitVec 3} {s : State}
    (hs : s.diag.wf) (hf : SteadyReads f (tableCalls ti ps s tileRows s.cart)) {k : Nat} (hk : k < 65536) :
    (tableDiag ti ps s tileRows s.cart s.diag).read (diagKey ti k) = pixelByte
      (steadyPixel f s ti ps (tileRowAt (pixelRow (k / 4 % 128) (k / 512))) (k / 4 % 128 % 8)) (k % 4) := by
  have hx : k / 4 % 128 < 128 := Nat.mod_lt _ (by decide)
  have hy : k / 512 < 128 := by omega
  have hkey : k = (k / 512 * 128 + k / 4 % 128) * 4 + k % 4 := by omega
  rw [← rowPixel_of_steady hf (pixelRow_lt hx hy) (Nat.mod_lt _ (by decide)),
    ← read_decoded ti ps hs hx hy (Nat.mod_lt _ (by decide)), ← hkey]

/-- Two DECODE with the same operands, banks and steady answers give the same view. -/
theorem decoded_view_eq {f : InternalAddr → Option Byte} {ti : BitVec 1} {ps : BitVec 3} {s t : State} (hs : s.diag.wf)
    (ht : t.diag.wf) (hp : t.pat = s.pat) (hq : t.pal = s.pal)
    (hf : SteadyReads f (tableCalls ti ps s tileRows s.cart)) (hf' : SteadyReads f (tableCalls ti ps t tileRows t.cart))
    {k : Nat} (hk : k < 65536) : (tableDiag ti ps t tileRows t.cart t.diag).read (diagKey ti k) =
      (tableDiag ti ps s tileRows s.cart s.diag).read (diagKey ti k) := by
  rw [read_decoded_of_steady hs hf hk, read_decoded_of_steady ht hf' hk, steadyPixel_congr hp hq]

/-- A second DECODE with the same operands and steady answers changes no byte. -/
theorem decoded_twice_eq {f : InternalAddr → Option Byte} {ti : BitVec 1} {ps : BitVec 3} {s t : State} (hs : s.diag.wf)
    (ht : t.diag = tableDiag ti ps s tileRows s.cart s.diag) (hp : t.pat = s.pat) (hq : t.pal = s.pal)
    (hf : SteadyReads f (tableCalls ti ps s tileRows s.cart)) (hf' : SteadyReads f (tableCalls ti ps t tileRows t.cart))
    (k : Nat) : (tableDiag ti ps t tileRows t.cart t.diag).read k = t.diag.read k := by
  have htwf : t.diag.wf := ht ▸ tableDiag_wf hs ti ps s tileRows s.cart
  by_cases hview : k < ti.toNat * 65536 ∨ (ti.toNat + 1) * 65536 ≤ k
  · exact read_tableDiag_outside hview ps t tileRows t.cart t.diag
  · obtain ⟨k, rfl⟩ : ∃ n, k = diagKey ti n := ⟨k - ti.toNat * 65536, by unfold diagKey; omega⟩
    rw [decoded_view_eq hs htwf hp hq hf hf' (by unfold diagKey at hview; omega), ht]

/-- Settles O58: the views agree in every pixel, and outside the view DECODE writes nothing. -/
theorem decodeRepeatsUnderASteadyCartridge : Obligations.DecodeRepeatsUnderASteadyCartridge := by
  refine ⟨fun ti ps s s' hs hs' hp hq => ?_, fun ti ps s hs => ?_⟩
  · obtain ⟨t, ht, htd, -, -, -, hth⟩ := exec_decode_next ti ps s
    obtain ⟨t', ht', htd', -, -, -, hth'⟩ := exec_decode_next ti ps s'
    refine ⟨t, t', _, _, ht, ht', hth, hth', fun f hf hf' k hk => ?_⟩
    rw [htd, htd', decoded_view_eq hs hs' hp hq hf hf' hk]
  · obtain ⟨t, ht, htd, htp, htq, -, hth⟩ := exec_decode_next ti ps s
    obtain ⟨u, hu, hud, -, -, -, huh⟩ := exec_decode_next ti ps t
    refine ⟨t, u, _, _, ht, hu, hth, huh, fun f hf hf' k => ?_⟩
    rw [hud, decoded_twice_eq hs htd htp htq hf hf']

/-- No cartridge answers every read the same: it claims none. -/
theorem steadyReads_of_noCart {s : State} (hs : s.NoCart) (ti : BitVec 1) (ps : BitVec 3) :
    SteadyReads (fun _ => none) (tableCalls ti ps s tileRows s.cart) := by
  intro c hc
  obtain ⟨hwe, n, hanswer⟩ := mem_tableCalls hc
  rw [show s.cart = [] from hs] at hanswer
  exact ⟨hwe, by rw [hanswer]; rfl⟩

/-- Settles O46: no cartridge is a steady one, before and after a DECODE. -/
theorem decodeIsIdempotent : Obligations.DecodeIsIdempotent := by
  refine ⟨fun ti ps s s' hn hn' hs hs' hp hq => ?_, fun ti ps s hn hs => ?_⟩
  · obtain ⟨t, ht, htd, -⟩ := exec_decode_next ti ps s
    obtain ⟨t', ht', htd', -⟩ := exec_decode_next ti ps s'
    refine ⟨t, t', ht, ht', fun k hk => ?_⟩
    rw [htd, htd', decoded_view_eq hs hs' hp hq (steadyReads_of_noCart hn ti ps) (steadyReads_of_noCart hn' ti ps) hk]
  · obtain ⟨t, ht, htd, htp, htq, htc, -⟩ := exec_decode_next ti ps s
    obtain ⟨u, hu, hud, -⟩ := exec_decode_next ti ps t
    have htn : t.NoCart := by rw [State.NoCart, htc, show s.cart = [] from hn, List.drop_nil]
    refine ⟨t, u, ht, hu, fun k => ?_⟩
    rw [hud, decoded_twice_eq hs htd htp htq (steadyReads_of_noCart hn ti ps) (steadyReads_of_noCart htn ti ps)]

end Sys2Proof.Machine
end

section
/-! SUPPORT. Every cartridge as a list of answers: for the calls of one operation a list can be built that answers each call as
the oracle does (spec 20_memory.md R48, R49; decision D13). -/

namespace Sys2Proof.Machine

/-! ### An oracle along a list of calls -/

/-- The oracle's state after a list of calls. -/
def Oracle.after (o : Oracle) : o.S → List HookCall → o.S
  | q, [] => q
  | q, c :: cs => if c.we then o.after (o.write q c.addr c.wdata).1 cs else o.after (o.read q c.addr).1 cs

theorem Oracle.gives_append (o : Oracle) (q : o.S) (cs ds : List HookCall) :
    o.Gives q (cs ++ ds) ↔ o.Gives q cs ∧ o.Gives (o.after q cs) ds := by
  induction cs generalizing q with
  | nil => simp [Oracle.Gives, Oracle.after]
  | cons c cs ih =>
    simp only [List.cons_append, Oracle.Gives, Oracle.after]
    split <;> rw [ih, and_assoc]

/-- The boundary's form of an oracle's answer to a read. -/
def answerOfByte (b : Option Byte) : CartAnswer := ⟨b.isSome, b.getD 0x00⟩

theorem byte_answerOfByte (b : Option Byte) : (answerOfByte b).byte = b := by
  cases b <;> rfl

/-- The read call with the address and the answer given. -/
def readCall (a : InternalAddr) (c : CartAnswer) : HookCall := ⟨false, a, wdataOnRead, c⟩

theorem Oracle.gives_readCall (o : Oracle) (q : o.S) (a : InternalAddr) :
    o.Gives q [readCall a (answerOfByte (o.read q a).2)] := ⟨byte_answerOfByte _, trivial⟩

/-- The calls of a run of `n` reads whose addresses depend on the answers. -/
def readCalls (addr : List CartAnswer → Nat → InternalAddr) (answers : List CartAnswer) (n : Nat) : List HookCall :=
  (List.range n).map fun k => readCall (addr answers k) (answers.getD k unclaimed)

section
variable {addr : List CartAnswer → Nat → InternalAddr}
  (haddr : ∀ answers c, ∀ k ≤ answers.length, addr (answers ++ [c]) k = addr answers k)
include haddr

/-- One more answer makes one more call, and leaves the calls before it as they are. -/
theorem readCalls_snoc (answers : List CartAnswer) (c : CartAnswer) :
    readCalls addr (answers ++ [c]) (answers.length + 1) =
      readCalls addr answers answers.length ++ [readCall (addr answers answers.length) c] := by
  have hbefore : ∀ k ∈ List.range answers.length,
      readCall (addr (answers ++ [c]) k) ((answers ++ [c]).getD k unclaimed) =
      readCall (addr answers k) (answers.getD k unclaimed) := by
    intro k hk
    have hk := List.mem_range.1 hk
    rw [haddr answers c k hk.le, List.getD_append _ _ _ _ hk]
  rw [readCalls, List.range_succ, List.map_append, List.map_congr_left hbefore, List.map_singleton,
    haddr answers c _ (Nat.le_refl _), List.getD_append_right _ _ _ _ (Nat.le_refl _), Nat.sub_self]
  rfl

/-- A run of reads, each address depending on the answers before it alone: the oracle's answers can be listed, by asking it
for one after the other. -/
theorem Oracle.exists_answers (o : Oracle) (q : o.S) (n : Nat) : ∃ answers calls, answers.length = n ∧
    calls = readCalls addr answers n ∧ o.Gives q calls := by
  induction n with
  | zero => exact ⟨[], [], rfl, rfl, trivial⟩
  | succ n ih =>
    obtain ⟨answers, calls, rfl, rfl, hgives⟩ := ih
    refine ⟨answers ++ [answerOfByte (o.read (o.after q (readCalls addr answers answers.length))
      (addr answers answers.length)).2], _, List.length_append, (readCalls_snoc haddr _ _).symm, ?_⟩
    exact (o.gives_append _ _ _).2 ⟨hgives, o.gives_readCall _ _⟩

end

/-! ### The calls of DECODE as a run of reads (R150) -/

/-- The address of call `n` of DECODE: of the ten of a tile row the two planes, then the columns' palette cells. -/
def decodeAddr (ti : BitVec 1) (ps : BitVec 3) (s : State) (cart : List CartAnswer) (n : Nat) : InternalAddr :=
  match n % 10 with
  | 0 => maskAddr (lowPlaneAddr ti (tileRowAt (n / 10)))
  | 1 => maskAddr (highPlaneAddr ti (tileRowAt (n / 10)))
  | k + 2 => maskAddr (colorAddr (rowIndex ti s (cart.drop (10 * (n / 10))) (tileRowAt (n / 10)) k) ps)

/-- An answer after the ones a column's two planes got does not change its colour index. -/
theorem rowIndex_snoc (ti : BitVec 1) (s : State) {answers : List CartAnswer} {m : Nat} (hm : m + 2 ≤ answers.length)
    (c : CartAnswer) (j : TileRow) (col : Nat) :
    rowIndex ti s ((answers ++ [c]).drop m) j col = rowIndex ti s (answers.drop m) j col := by
  have hget : ∀ k < 2, ((answers ++ [c]).drop m).getD k unclaimed = (answers.drop m).getD k unclaimed := by
    intro k hk
    rw [List.drop_append_of_le_length (by omega), List.getD_append _ _ _ _ (by rw [List.length_drop]; omega)]
  simp only [rowIndex, readAt, hget 0 (by decide), hget 1 (by decide)]

theorem decodeAddr_snoc (ti : BitVec 1) (ps : BitVec 3) (s : State) (answers : List CartAnswer) (c : CartAnswer) (n : Nat)
    (hn : n ≤ answers.length) : decodeAddr ti ps s (answers ++ [c]) n = decodeAddr ti ps s answers n := by
  unfold decodeAddr
  split
  · rfl
  · rfl
  · rw [rowIndex_snoc ti s (by omega)]

theorem getD_drop (l : List CartAnswer) (m k : Nat) : (l.drop m).getD k unclaimed = l.getD (m + k) unclaimed := by
  simp [List.getD_eq_getElem?_getD]

/-- Call `k` of tile row `j` is the read at its address, with its answer. -/
theorem decodeCalls_getElem? (ti : BitVec 1) (ps : BitVec 3) (s : State) (cart : List CartAnswer) {j k : Nat}
    (hj : j < 2048) (hk : k < 10) : (tableCalls ti ps s tileRows cart)[10 * j + k]? =
      some (readCall (decodeAddr ti ps s cart (10 * j + k)) (cart.getD (10 * j + k) unclaimed)) := by
  have hdiv : (10 * j + k) / 10 = j := by omega
  have hmod : (10 * j + k) % 10 = k := by omega
  rw [← getD_drop, decodeAddr, hdiv, hmod]
  match k, hk with
  | 0, _ => exact decodeCalls_low ti ps s hj
  | 1, _ => exact decodeCalls_high ti ps s hj
  | col + 2, hk =>
    have hcol : col < 8 := by omega
    have h := decodeCalls_column (cart := cart) ti ps s hj hcol
    rw [Nat.add_assoc, Nat.add_comm 2 col] at h
    exact h

/-- DECODE's calls are the run of reads at its addresses. -/
theorem decodeCalls_eq (ti : BitVec 1) (ps : BitVec 3) (s : State) (cart : List CartAnswer) :
    tableCalls ti ps s tileRows cart = readCalls (decodeAddr ti ps s) cart 20480 := by
  refine List.ext_getElem (by simp [readCalls]) fun n hn _ => ?_
  have hlt : n < 20480 := by simpa using hn
  have h := decodeCalls_getElem? ti ps s cart (j := n / 10) (k := n % 10) (by omega) (by omega)
  rw [Nat.div_add_mod, List.getElem?_eq_getElem hn, Option.some_inj] at h
  simp only [h, readCalls, List.getElem_map, List.getElem_range]

/-- An operation that makes no call needs no answer. -/
theorem covered_of_no_calls (o : Oracle) (q : o.S) {i : Instr} (s : State) (hrd : i ≠ .rdData) (hwr : ∀ d, i ≠ .wrData d)
    (hcolor : ∀ ci ps, i ≠ .color ci ps) (hdecode : ∀ ti ps, i ≠ .decode ti ps) :
    ∃ answers t calls, exec i { s with cart := answers } = .next t ∧ t.cart = [] ∧ t.hooks = calls.reverse ++ s.hooks ∧
      o.Gives q calls := by
  obtain ⟨t, ht⟩ := exec_completes i { s with cart := [] }
  obtain ⟨hhooks, hcart⟩ := (exec_frame ht).calls hrd hwr hcolor hdecode
  exact ⟨[], t, [], ht, hcart, hhooks, trivial⟩

/-- DECODE's answers are listed by asking the oracle at each address in turn. -/
theorem covered_decode (o : Oracle) (q : o.S) (ti : BitVec 1) (ps : BitVec 3) (s : State) :
    ∃ answers t calls, exec (.decode ti ps) { s with cart := answers } = .next t ∧ t.cart = [] ∧
      t.hooks = calls.reverse ++ s.hooks ∧ o.Gives q calls := by
  obtain ⟨answers, calls, hlen, hcalls, hgives⟩ := Oracle.exists_answers (decodeAddr_snoc ti ps s) o q 20480
  obtain ⟨t, ht, -, -, -, hcart, hhooks⟩ := exec_decode_next ti ps { s with cart := answers }
  rw [tableCalls_congr (s := s) (t := { s with cart := answers }) rfl rfl, decodeCalls_eq] at hhooks
  refine ⟨answers, t, calls, ht, hcart.trans ?_, ?_, hgives⟩
  · exact List.drop_eq_nil_of_le hlen.le
  · rw [hcalls, hhooks]

/-- Settles O53: one answer for each operation with one call, DECODE's list, and none for the rest. -/
theorem everyCartridgeOracleIsCovered : Obligations.EveryCartridgeOracleIsCovered := by
  intro o q i s
  cases i with
  | rdData => exact ⟨[answerOfByte (o.read q (s.vaddr.setWidth 14)).2], _, [readCall (s.vaddr.setWidth 14) _],
      exec_rdData_eq _, rfl, rfl, o.gives_readCall q _⟩
  | wrData d => exact ⟨[⟨(o.write q (s.vaddr.setWidth 14) d).2, 0x00⟩], _, [⟨true, s.vaddr.setWidth 14, d, _⟩],
      exec_wrData_eq d _, rfl, rfl, rfl, trivial⟩
  | color ci ps => exact ⟨[answerOfByte (o.read q (maskAddr (colorAddr ci ps))).2], _,
      [readCall (maskAddr (colorAddr ci ps)) _], exec_color_eq ci ps _, rfl, rfl, o.gives_readCall q _⟩
  | decode ti ps => exact covered_decode o q ti ps s
  | _ => exact covered_of_no_calls o q s (by simp) (by simp) (by simp) (by simp)

end Sys2Proof.Machine
end
